-- ==== Sys2Proof/Word.lean ====
section
/-! DEFINITION. The words the unit's ports carry. -/

namespace Sys2Proof

/-- A value on one of the 256-bit buses `A`, `B`, `Y` (10_state.md R22). Bit `i` has weight `2^i` (20_memory.md R30). -/
abbrev Bus := BitVec 256

/-- A 16-bit command word `CMD` (30_encoding.md R40). -/
abbrev CmdWord := BitVec 16

/-- A byte of the external serializer of 20_memory.md R31. PRESUMED (K1): a byte has 8 bits. -/
abbrev Byte := BitVec 8

end Sys2Proof
end

