-- ==== Sys2Proof/Syntax.lean ====
section
/-! DEFINITION. The commands of the unit: the eight formats and the eleven operations. -/

namespace Sys2Proof

/-- The eight formats the format selector reaches (10_state.md R18, 30_encoding.md R41). -/
inductive Fmt where
  | w32 | w64 | w96 | w128 | w160 | w192 | w224 | w256
  deriving DecidableEq, Repr

/-- One constructor per row of the opcode table (30_encoding.md R42). In the Z form the reserved `amt` field is no operand,
so only SHIFT has an amount. The amount is a natural number: a negative one cannot be written (43_shift.md R95). -/
inductive Instr where
  /-- ADD, op 0x0 (41_add.md R70). -/
  | add (fmt : Fmt)
  /-- AND, op 0x1 (42_bitwise.md R80). -/
  | and (fmt : Fmt)
  /-- OR, op 0x2 (42_bitwise.md R81). -/
  | or (fmt : Fmt)
  /-- XOR, op 0x3 (42_bitwise.md R82). -/
  | xor (fmt : Fmt)
  /-- SHIFT, op 0x4 (43_shift.md R90). -/
  | shift (fmt : Fmt) (amt : Nat)
  /-- WIDTH, op 0x5 (40_conversion_width.md R64). -/
  | width (fmt : Fmt)
  /-- FROMINT, op 0x6 (40_conversion_width.md R62). -/
  | fromint (fmt : Fmt)
  /-- TOINT, op 0x7 (40_conversion_width.md R60). -/
  | toint (fmt : Fmt)
  /-- CMP, op 0x8 (44_compare_bounds.md R101). -/
  | cmp (fmt : Fmt)
  /-- MINV, op 0x9 (44_compare_bounds.md R103). -/
  | minv (fmt : Fmt)
  /-- MAXV, op 0xA (44_compare_bounds.md R104). -/
  | maxv (fmt : Fmt)
  deriving DecidableEq, Repr

end Sys2Proof
end

