-- ==== Sys2Proof/Decode.lean ====
section
/-! DEFINITION. Command words: fields, decoding, encoding (30_encoding.md). -/

namespace Sys2Proof

/-- `op = CMD[3:0]` (30_encoding.md R40). -/
def opField (w : CmdWord) : BitVec 4 := w.extractLsb' 0 4

/-- `fmt = CMD[6:4]` (30_encoding.md R40). -/
def fmtField (w : CmdWord) : BitVec 3 := w.extractLsb' 4 3

/-- `amt = CMD[15:7]` (30_encoding.md R40). -/
def amtField (w : CmdWord) : BitVec 9 := w.extractLsb' 7 9

/-- The format a code selects, by the three bits of the code as R41 writes them, most significant first. -/
def Fmt.ofCode (c : BitVec 3) : Fmt :=
  match c.getLsbD 2, c.getLsbD 1, c.getLsbD 0 with
  | false, false, false => .w32
  | false, false, true => .w64
  | false, true, false => .w96
  | false, true, true => .w128
  | true, false, false => .w160
  | true, false, true => .w192
  | true, true, false => .w224
  | true, true, true => .w256

/-- The code of a format (30_encoding.md R41). -/
def Fmt.code : Fmt → BitVec 3
  | .w32 => 0b000#3
  | .w64 => 0b001#3
  | .w96 => 0b010#3
  | .w128 => 0b011#3
  | .w160 => 0b100#3
  | .w192 => 0b101#3
  | .w224 => 0b110#3
  | .w256 => 0b111#3

/-- The operation an operation code selects, 0x0 to 0xA; 0xB to 0xF select none (30_encoding.md R42). -/
def instrOf (op : BitVec 4) (fmt : Fmt) (amt : Nat) : Option Instr :=
  match op.toNat with
  | 0x0 => some (.add fmt)
  | 0x1 => some (.and fmt)
  | 0x2 => some (.or fmt)
  | 0x3 => some (.xor fmt)
  | 0x4 => some (.shift fmt amt)
  | 0x5 => some (.width fmt)
  | 0x6 => some (.fromint fmt)
  | 0x7 => some (.toint fmt)
  | 0x8 => some (.cmp fmt)
  | 0x9 => some (.minv fmt)
  | 0xA => some (.maxv fmt)
  | _ => none

/-- Why a word spells no operation: the two classes (a) and (b) of 30_encoding.md R47. The outputs do not tell them apart
(60_exceptions.md R113). -/
inductive IllegalWord where
  /-- `op` is 0xB to 0xF. -/
  | reservedOp
  /-- The word is of the Z form and its `amt` is not 0. -/
  | nonzeroAmt
  deriving DecidableEq, Repr

/-- Decoding, a total function of the 16 bits of `CMD` (30_encoding.md R46). -/
def decode (w : CmdWord) : Except IllegalWord Instr :=
  match instrOf (opField w) (Fmt.ofCode (fmtField w)) (amtField w).toNat with
  | none => .error .reservedOp
  | some i => if opField w ≠ 0x4#4 ∧ amtField w ≠ 0#9 then .error .nonzeroAmt else .ok i

/-- The operation code of a command (30_encoding.md R42). -/
def Instr.opcode : Instr → BitVec 4
  | .add _ => 0x0#4
  | .and _ => 0x1#4
  | .or _ => 0x2#4
  | .xor _ => 0x3#4
  | .shift _ _ => 0x4#4
  | .width _ => 0x5#4
  | .fromint _ => 0x6#4
  | .toint _ => 0x7#4
  | .cmp _ => 0x8#4
  | .minv _ => 0x9#4
  | .maxv _ => 0xA#4

/-- The format of a command: every command has one (30_encoding.md R40). -/
def Instr.fmt : Instr → Fmt
  | .add f | .and f | .or f | .xor f | .shift f _ | .width f | .fromint f | .toint f | .cmp f | .minv f | .maxv f => f

/-- The content of the `amt` field: the amount of SHIFT, 0 in the Z form (30_encoding.md R43 to R45). -/
def Instr.amount : Instr → Nat
  | .shift _ amt => amt
  | .add _ | .and _ | .or _ | .xor _ | .width _ | .fromint _ | .toint _ | .cmp _ | .minv _ | .maxv _ => 0

/-- The word of a well-formed command, its three fields side by side (30_encoding.md R40, R51). -/
def encode (i : Instr) : CmdWord := BitVec.ofNat 9 i.amount ++ i.fmt.code ++ i.opcode

/-- The word of the Z form: amount 0, a format, an operation code (30_encoding.md R40, R43, R45). -/
def zWord (op : BitVec 4) (f : Fmt) : CmdWord := 0#9 ++ f.code ++ op

/-- The word of the S form: an amount and a format, operation code 0x4 (30_encoding.md R40, R44). -/
def sWord (f : Fmt) (amt : BitVec 9) : CmdWord := amt ++ f.code ++ 0x4#4

/-- The mask of a command's row in the opcode table (30_encoding.md R43 to R45). -/
def Instr.mask : Instr → CmdWord
  | .shift _ _ => 0x000F#16
  | .add _ | .and _ | .or _ | .xor _ | .width _ | .fromint _ | .toint _ | .cmp _ | .minv _ | .maxv _ => 0xFF8F#16

/-- What the masked bits of a command's word are (30_encoding.md R43 to R45). -/
def Instr.pattern : Instr → CmdWord
  | .add _ => 0x0000#16
  | .and _ => 0x0001#16
  | .or _ => 0x0002#16
  | .xor _ => 0x0003#16
  | .shift _ _ => 0x0004#16
  | .width _ => 0x0005#16
  | .fromint _ => 0x0006#16
  | .toint _ => 0x0007#16
  | .cmp _ => 0x0008#16
  | .minv _ => 0x0009#16
  | .maxv _ => 0x000A#16

/-- The pseudo-instruction LIT.F: FROMINT.F (30_encoding.md R52). -/
def pseudoLit (f : Fmt) : Instr := .fromint f

/-- The pseudo-instruction CAST.F: FROMINT.F (30_encoding.md R52). -/
def pseudoCast (f : Fmt) : Instr := .fromint f

/-- The pseudo-instruction SHL.F: SHIFT.F (30_encoding.md R52). -/
def pseudoShl (f : Fmt) (amt : Nat) : Instr := .shift f amt

/-- The command word whose low `nbits` bits are those of `w`, the rest 0: the port delivers one whole 16-bit word per
transaction and bit 0 of the table is `CMD[0]`, so no byte order enters (30_encoding.md R40, R50). Log entry 14. -/
def tableWord (nbits w : Nat) : CmdWord := BitVec.ofNat 16 (w % 2 ^ nbits)

/-- The command the decoder reads from a word as the opcode table numbers its bits. -/
def decodeTableWord (nbits w : Nat) : Option Instr :=
  match decode (tableWord nbits w) with
  | .ok i => some i
  | .error _ => none

end Sys2Proof
end

