-- ==== Sys2Proof/Machine/Format.lean ====
section
/-! DEFINITION. The typed level: formats as trees, typed values, conversions, and their layout on a bus
(10_state.md sections 2 and 3, 40_conversion_width.md section 1). -/

namespace Sys2Proof.Machine

/-- A format is a finite binary tree whose leaves are `L32` or `L64`; `C lo hi` is the composite with low limb `lo` and high
limb `hi`, of any widths and depths (10_state.md R14, R19). -/
inductive Format where
  | L32
  | L64
  | C (lo hi : Format)
  deriving DecidableEq, Repr

/-- The bit count of a format (10_state.md R15). -/
def Format.width : Format → Nat
  | .L32 => 32
  | .L64 => 64
  | .C lo hi => lo.width + hi.width

/-- The typed values of a format: 32 or 64 bits for a leaf, a pair (low limb, high limb) for a composite. The range of every
limb holds by construction, and there is no normal form (10_state.md R16). Log entry 11. -/
@[reducible] def Format.Val : Format → Type
  | .L32 => BitVec 32
  | .L64 => BitVec 64
  | .C lo hi => lo.Val × hi.Val

/-- The tree of each named format (10_state.md R18, 30_encoding.md R41). -/
def tree : Fmt → Format
  | .w32 => .L32
  | .w64 => .L64
  | .w96 => .C .L32 .L64
  | .w128 => .C .L64 .L64
  | .w160 => .C .L32 (.C .L64 .L64)
  | .w192 => .C .L64 (.C .L64 .L64)
  | .w224 => .C .L32 (.C .L64 (.C .L64 .L64))
  | .w256 => .C .L64 (.C .L64 (.C .L64 .L64))

/-- `width(F)` of a named format, `W` in the instruction rules. -/
abbrev widthOf (f : Fmt) : Nat := (tree f).width

/-- `value_F`, the source's `to_integer`: the integer a typed value stands for (10_state.md R17). It is never negative, so it
is a natural number here. -/
def valueF : (F : Format) → F.Val → Nat
  | .L32, v => BitVec.toNat v
  | .L64, v => BitVec.toNat v
  | .C lo hi, v => valueF lo v.1 + valueF hi v.2 * 2 ^ lo.width

/-- `from_F`, the source's `from_integer`, on every mathematical integer, with floored `mod` and `div`
(40_conversion_width.md R61, 90_conflicts.md C2). -/
def fromF : (F : Format) → Int → F.Val
  | .L32, n => BitVec.ofInt 32 n
  | .L64, n => BitVec.ofInt 64 n
  | .C lo hi, n => (fromF lo (n.fmod (2 ^ lo.width)), fromF hi (n.fdiv (2 ^ lo.width)))

/-- Reinterpreting a value of format `G` in format `F` (40_conversion_width.md R66). -/
def castF (G F : Format) (v : G.Val) : F.Val := fromF F (valueF G v)

/-- The width of a composite, with the high limb first, as concatenation writes it. -/
theorem Format.width_swap (lo hi : Format) : hi.width + lo.width = (Format.C lo hi).width :=
  Nat.add_comm hi.width lo.width

/-- `pack_F`: the high limb's bits directly above the low limb's, at every level (10_state.md R20). -/
def packF : (F : Format) → F.Val → BitVec F.width
  | .L32, v => v
  | .L64, v => v
  | .C lo hi, v => (packF hi v.2 ++ packF lo v.1).cast (Format.width_swap lo hi)

/-- `unpack_F` (10_state.md R21). -/
def unpackF : (F : Format) → BitVec F.width → F.Val
  | .L32, b => b
  | .L64, b => b
  | .C lo hi, b => (unpackF lo (b.extractLsb' 0 lo.width), unpackF hi (b.extractLsb' lo.width hi.width))

end Sys2Proof.Machine
end

