-- ==== Sys2Proof/Machine/Order.lean ====
section
/-! DEFINITION. Structural equality and ordering of typed values (44_compare_bounds.md R100). -/

namespace Sys2Proof.Machine

/-- `eq_F` (44_compare_bounds.md R100). -/
def eqF : (F : Format) → F.Val → F.Val → Bool
  | .L32, a, b => BitVec.toNat a == BitVec.toNat b
  | .L64, a, b => BitVec.toNat a == BitVec.toNat b
  | .C lo hi, a, b => eqF hi a.2 b.2 && eqF lo a.1 b.1

/-- `lt_F`: high limb first, then low limb; unsigned comparison at the leaves (44_compare_bounds.md R100). -/
def ltF : (F : Format) → F.Val → F.Val → Bool
  | .L32, a, b => BitVec.ult a b
  | .L64, a, b => BitVec.ult a b
  | .C lo hi, a, b => ltF hi a.2 b.2 || (eqF hi a.2 b.2 && ltF lo a.1 b.1)

end Sys2Proof.Machine
end

