-- ==== Sys2Proof/Machine/Flags.lean ====
section
/-! DEFINITION. The two places where the unit turns a comparison into bits. The unit has no flag: the carry is a signal inside
one ADD and the bits of CMP are data on `Y` (10_state.md R13). -/

namespace Sys2Proof.Machine

/-- The carry out of a limb's addition: 1 when the wrapped sum is below the first addend, else 0 (41_add.md R72). -/
def carryF (F : Format) (sum a : F.Val) : Nat := if ltF F sum a then 1 else 0

/-- The result bits of CMP, `{LT, EQ}`: bit 0 is EQ, bit 1 is LT (44_compare_bounds.md R101). -/
def cmpBits (lt eq : Bool) : BitVec 2 := BitVec.ofBool lt ++ BitVec.ofBool eq

end Sys2Proof.Machine
end

