-- ==== Sys2Proof/Config.lean ====
section
/-! DEFINITION. The one free value. The parameters 00_scope.md R5 fixes are the widths of the types in Word.lean (`BUS_W` 256, `CMD_W`
16), of the amount field in Decode.lean (`AMT_W` 9) and the table of formats in Machine/Format.lean; of the OPEN ones,
`LEAF_BYTE_ORDER` is an argument in Machine/Serialize.lean and no rule depends on `T_PROP` (log entries 8, 10). -/

namespace Sys2Proof

/-- The value `Y` shows in a transaction with `ILL = 1`: unspecified, a free draw on which no claim may depend
(60_exceptions.md R110, 93_implementation_defined.md U3). It has no body, so nothing can be proved about it. The argument
numbers the draws, so that two illegal transactions need not show the same value. DESIGN CHOICE, log entry 4. -/
opaque Config.unspecifiedY : Nat → Bus

end Sys2Proof
end

