-- ==== Sys2Proof/Machine/State.lean ====
section
/-! DEFINITION. What one step reads and drives: the ports of the unit, and the host's list of transactions. The unit itself
holds no state (10_state.md R10 to R13). -/

namespace Sys2Proof.Machine

/-- What the host presents for one transaction (10_state.md R22, R23). -/
structure Transaction where
  /-- The command word. -/
  cmd : CmdWord
  /-- The first operand. -/
  a : Bus
  /-- The second operand. -/
  b : Bus
  deriving DecidableEq, Repr

/-- The five ports at one instant (10_state.md R22), which are wires and not storage, and two fields of the model's own:
`pending`, the rest of the host's finite list of transactions (R24; log entry 6), and `draws`, how many free values have been
drawn (log entry 4). Log entry 1 says why a stateless unit has a State. -/
structure State where
  /-- Port CMD. -/
  cmd : CmdWord
  /-- Port A. -/
  a : Bus
  /-- Port B. -/
  b : Bus
  /-- Port Y. -/
  y : Bus
  /-- Port ILL. -/
  ill : Bool
  /-- The transactions the host will present next, in order; the model's own. -/
  pending : List Transaction
  /-- How many values of `Config.unspecifiedY` have been drawn; the model's own. -/
  draws : Nat
  deriving DecidableEq, Repr

/-- The one exception of the unit (60_exceptions.md R111). -/
inductive Fault where
  /-- `IllegalCommand` (60_exceptions.md R110). Answered by `Safety`'s `checkedStep` alone, the reading of 10_state.md R23 in
  which a transaction with `ILL = 1` is a fault; `exec` and `step` never answer it, since they take the exception. Safe: a
  run stops where the unit would go on with the next transaction. -/
  | illegalCommand
  deriving DecidableEq, Repr

/-- Reasons to answer without a meaning. -/
inductive Refusal where
  /-- An instruction without a meaning yet, by its mnemonic. Raised by no arm of `exec`: every instruction has its meaning.
  Safe. -/
  | notModelled (mnemonic : String)
  deriving DecidableEq, Repr

/-- The ports at the first moment. The unit has no reset and nothing to reset (70_reset_and_hazards.md R120, R121). DESIGN
CHOICE, log entry 2: the inputs are held at all zeros, R120's example; then the outputs are `Y = 0`, `ILL = 0` (R120, log
entry 3). DESIGN CHOICE: no transaction pending (log entry 6), no draw made (log entry 4). -/
def State.reset : State :=
  { cmd := 0, a := 0, b := 0, y := 0, ill := false, pending := [], draws := 0 }

end Sys2Proof.Machine
end

