-- ==== Sys2Proof/Machine/Ops.lean ====
section
/-! DEFINITION. The operations on the ports, and taking the one exception. -/

namespace Sys2Proof.Machine

/-- The host presents its next transaction on the input ports. At the end of its list it holds the inputs as they are
(10_state.md R24, 70_reset_and_hazards.md R123). DESIGN CHOICE, log entry 7. -/
def State.present (s : State) : State :=
  match s.pending with
  | [] => s
  | t :: ts => { s with cmd := t.cmd, a := t.a, b := t.b, pending := ts }

/-- `Y <- v` of a rule that raises nothing: `Y` shows `v` and `ILL` is 0 (00_scope.md section 5.3). -/
def driveY (v : Bus) (s : State) : State := { s with y := v, ill := false }

/-- `raise IllegalCommand`: `ILL` is 1, `Y` is unspecified, a free draw, and nothing else happens; nothing is saved and control
goes nowhere (60_exceptions.md R110, R114). There is no return from it: the next transaction is evaluated like any other
(R115). -/
def raiseIllegalCommand (s : State) : State :=
  { s with y := Config.unspecifiedY s.draws, ill := true, draws := s.draws + 1 }

end Sys2Proof.Machine
end

