-- ==== Sys2Proof/Machine/Operands.lean ====
section
/-! DEFINITION. The operand and result forms (10_state.md R25, 30_encoding.md R49). -/

namespace Sys2Proof.Machine

/-- `port[W-1:0]`: the bits of a port that a format uses (10_state.md R25). -/
def portLow (f : Fmt) (port : Bus) : BitVec (widthOf f) := port.extractLsb' 0 (widthOf f)

/-- A typed operand, `unpack_F(port[W-1:0])`: the bits above the format's width are ignored (10_state.md R25). -/
def readTyped (f : Fmt) (port : Bus) : (tree f).Val := unpackF (tree f) (portLow f port)

/-- The integer operand of FROMINT: all 256 bits, unsigned (30_encoding.md R49). -/
def readInteger (port : Bus) : Nat := port.toNat

/-- A typed result, `Y <- zext_256(pack_F(r))` (10_state.md R25). -/
def driveTyped (f : Fmt) (r : (tree f).Val) (s : State) : State := driveY ((packF (tree f) r).setWidth 256) s

/-- An integer result as a 256-bit unsigned vector (30_encoding.md R49). -/
def driveInteger (n : Nat) (s : State) : State := driveY (BitVec.ofNat 256 n) s

/-- The result bits of CMP, `Y <- zext_256({LT, EQ})` (44_compare_bounds.md R101). -/
def driveBits (bits : BitVec 2) (s : State) : State := driveY (bits.setWidth 256) s

end Sys2Proof.Machine
end

