-- ==== Sys2Proof/Machine/Add.lean ====
section
/-! DEFINITION. The carry-propagating adder (41_add.md). -/

namespace Sys2Proof.Machine

/-- `add_F`: native wraparound at the leaves (41_add.md R71), ripple carry over the two limbs of a composite (R72). -/
def addF : (F : Format) → F.Val → F.Val → F.Val
  | .L32, a, b => BitVec.add a b
  | .L64, a, b => BitVec.add a b
  | .C lo hi, a, b =>
    let sumLo := addF lo a.1 b.1
    (sumLo, addF hi (addF hi a.2 b.2) (fromF hi (carryF lo sumLo a.1)))

/-- ADD (41_add.md R70). -/
def execAdd (f : Fmt) (s : State) : Host.Outcome State Fault Refusal :=
  .next (driveTyped f (addF (tree f) (readTyped f s.a) (readTyped f s.b)) s)

end Sys2Proof.Machine
end

