-- ==== Sys2Proof/Machine/Bitwise.lean ====
section
/-! DEFINITION. AND, OR and XOR: bit by bit at the leaves (42_bitwise.md R83), limb by limb on a composite (R84). -/

namespace Sys2Proof.Machine

/-- `and_F` (42_bitwise.md R83, R84). -/
def andF : (F : Format) → F.Val → F.Val → F.Val
  | .L32, a, b => BitVec.and a b
  | .L64, a, b => BitVec.and a b
  | .C lo hi, a, b => (andF lo a.1 b.1, andF hi a.2 b.2)

/-- `or_F` (42_bitwise.md R83, R84). -/
def orF : (F : Format) → F.Val → F.Val → F.Val
  | .L32, a, b => BitVec.or a b
  | .L64, a, b => BitVec.or a b
  | .C lo hi, a, b => (orF lo a.1 b.1, orF hi a.2 b.2)

/-- `xor_F` (42_bitwise.md R83, R84). -/
def xorF : (F : Format) → F.Val → F.Val → F.Val
  | .L32, a, b => BitVec.xor a b
  | .L64, a, b => BitVec.xor a b
  | .C lo hi, a, b => (xorF lo a.1 b.1, xorF hi a.2 b.2)

/-- AND (42_bitwise.md R80). -/
def execAnd (f : Fmt) (s : State) : Host.Outcome State Fault Refusal :=
  .next (driveTyped f (andF (tree f) (readTyped f s.a) (readTyped f s.b)) s)

/-- OR (42_bitwise.md R81). -/
def execOr (f : Fmt) (s : State) : Host.Outcome State Fault Refusal :=
  .next (driveTyped f (orF (tree f) (readTyped f s.a) (readTyped f s.b)) s)

/-- XOR (42_bitwise.md R82). -/
def execXor (f : Fmt) (s : State) : Host.Outcome State Fault Refusal :=
  .next (driveTyped f (xorF (tree f) (readTyped f s.a) (readTyped f s.b)) s)

end Sys2Proof.Machine
end

