-- ==== Sys2Proof/Machine/Compare.lean ====
section
/-! DEFINITION. CMP, MINV and MAXV (44_compare_bounds.md). -/

namespace Sys2Proof.Machine

/-- `min_F` (44_compare_bounds.md R105). -/
def minF : (F : Format) → F.Val
  | .L32 => 0#32
  | .L64 => 0#64
  | .C lo hi => (minF lo, minF hi)

/-- `max_F`, from each limb's own maximum (44_compare_bounds.md R105). -/
def maxF : (F : Format) → F.Val
  | .L32 => 0xFFFFFFFF#32
  | .L64 => 0xFFFFFFFFFFFFFFFF#64
  | .C lo hi => (maxF lo, maxF hi)

/-- CMP (44_compare_bounds.md R101). -/
def execCmp (f : Fmt) (s : State) : Host.Outcome State Fault Refusal :=
  let a := readTyped f s.a
  let b := readTyped f s.b
  .next (driveBits (cmpBits (ltF (tree f) a b) (eqF (tree f) a b)) s)

/-- MINV (44_compare_bounds.md R103). -/
def execMinv (f : Fmt) (s : State) : Host.Outcome State Fault Refusal :=
  .next (driveTyped f (minF (tree f)) s)

/-- MAXV (44_compare_bounds.md R104). -/
def execMaxv (f : Fmt) (s : State) : Host.Outcome State Fault Refusal :=
  .next (driveTyped f (maxF (tree f)) s)

end Sys2Proof.Machine
end

