-- ==== Sys2Proof/Machine/Conversion.lean ====
section
/-! DEFINITION. TOINT, FROMINT and WIDTH (40_conversion_width.md). -/

namespace Sys2Proof.Machine

/-- TOINT (40_conversion_width.md R60). -/
def execToint (f : Fmt) (s : State) : Host.Outcome State Fault Refusal :=
  .next (driveInteger (valueF (tree f) (readTyped f s.a)) s)

/-- FROMINT, the narrowing cast (40_conversion_width.md R62). -/
def execFromint (f : Fmt) (s : State) : Host.Outcome State Fault Refusal :=
  .next (driveTyped f (fromF (tree f) (readInteger s.a)) s)

/-- WIDTH (40_conversion_width.md R64). -/
def execWidth (f : Fmt) (s : State) : Host.Outcome State Fault Refusal :=
  .next (driveInteger (tree f).width s)

end Sys2Proof.Machine
end

