-- ==== Sys2Proof/Machine/Shift.lean ====
section
/-! DEFINITION. The barrel shifter with cross-limb propagation (43_shift.md). -/

namespace Sys2Proof.Machine

/-- `inj` of 43_shift.md R92: the bits of the low limb's value `v` that cross the boundary at `wl` when it moves up by `x`, cut
to the `wh` bits of the high limb. -/
def crossing (wl wh v x : Nat) : Nat := v <<< x / 2 ^ wl % 2 ^ wh

/-- `shift_F` by an amount of 0 or more: native left shift at the leaves (43_shift.md R91), the crossing bits ORed into the high
limb of a composite (R92). -/
def shiftF : (F : Format) → F.Val → Nat → F.Val
  | .L32, v, x => BitVec.shiftLeft v x
  | .L64, v, x => BitVec.shiftLeft v x
  | .C lo hi, v, x =>
    if x = 0 then v
    else (shiftF lo v.1 x, orF hi (shiftF hi v.2 x) (fromF hi (crossing lo.width hi.width (valueF lo v.1) x)))

/-- The inner shift of 43_shift.md R93's reading of the source's mechanism: a left shift for an amount of 0 or more, a logical
right shift for a negative one. It is no operation of the unit and `shiftF` does not use it. Log entry 13. -/
def innerShift (F : Format) (v : F.Val) (x : Int) : F.Val :=
  if 0 ≤ x then shiftF F v x.toNat else fromF F (valueF F v / 2 ^ (-x).toNat : Nat)

/-- The source's own two-branch mechanism on a composite, as 43_shift.md R93 transcribes it. It is not the meaning of SHIFT:
R93 claims that it agrees with R92, and that is a claim to be proved. Log entry 13. -/
def sourceShift (lo hi : Format) (v : (Format.C lo hi).Val) (x : Nat) : (Format.C lo hi).Val :=
  let carried :=
    if lo.width < hi.width then innerShift hi (castF lo hi v.1) (x - lo.width)
    else castF lo hi (innerShift lo v.1 (x - lo.width))
  (shiftF lo v.1 x, orF hi (shiftF hi v.2 x) carried)

/-- SHIFT (43_shift.md R90). -/
def execShift (f : Fmt) (amt : Nat) (s : State) : Host.Outcome State Fault Refusal :=
  .next (driveTyped f (shiftF (tree f) (readTyped f s.a) amt) s)

end Sys2Proof.Machine
end

