-- ==== Sys2Proof/Machine/Dispatch.lean ====
section
/-! DEFINITION. The meaning of each command, one arm per constructor (30_encoding.md R42). -/

namespace Sys2Proof.Machine

/-- Runs a command on the ports (10_state.md R23, 30_encoding.md R46). -/
def exec (i : Instr) (s : State) : Host.Outcome State Fault Refusal :=
  match i with
  | .add f => Sys2Proof.Machine.execAdd f s
  | .and f => Sys2Proof.Machine.execAnd f s
  | .or f => Sys2Proof.Machine.execOr f s
  | .xor f => Sys2Proof.Machine.execXor f s
  | .shift f amt => Sys2Proof.Machine.execShift f amt s
  | .width f => Sys2Proof.Machine.execWidth f s
  | .fromint f => Sys2Proof.Machine.execFromint f s
  | .toint f => Sys2Proof.Machine.execToint f s
  | .cmp f => Sys2Proof.Machine.execCmp f s
  | .minv f => Sys2Proof.Machine.execMinv f s
  | .maxv f => Sys2Proof.Machine.execMaxv f s

end Sys2Proof.Machine
end

