-- ==== Sys2Proof/Machine/Step.lean ====
section
/-! DEFINITION. One step: one transaction (10_state.md R23). -/

namespace Sys2Proof.Machine

/-- `(Y, ILL) = eval(CMD, A, B)` on the ports as they stand (30_encoding.md R46): an illegal word raises `IllegalCommand`, any
other runs the command it spells. -/
def evalPorts (s : State) : Host.Outcome State Fault Refusal :=
  match decode s.cmd with
  | .error _ => .next (raiseIllegalCommand s)
  | .ok i => exec i s

/-- One transaction: the host presents its inputs and the unit drives its outputs (10_state.md R23, R24). -/
def step (s : State) : Host.Outcome State Fault Refusal := evalPorts s.present

/-- `s` with a command word where the next step finds its command: in the host's next transaction, or on port CMD when the
host's list has ended. The operands stay. -/
def State.withFetchWord (s : State) (nbits w : Nat) : State :=
  match s.pending with
  | [] => { s with cmd := tableWord nbits w }
  | t :: ts => { s with pending := { t with cmd := tableWord nbits w } :: ts }

end Sys2Proof.Machine
end

