-- ==== Sys2Proof/Machine/Serialize.lean ====
section
/-! DEFINITION. The serialization contract of 20_memory.md R31. It belongs to an external collaborator and no command reaches
it; it is here because it is the spec's one rule on limb and byte order. Log entry 10. -/

namespace Sys2Proof.Machine

/-- What the external serializer does with a leaf limb. The order of the bytes inside a leaf is the OPEN parameter
`LEAF_BYTE_ORDER` (00_scope.md R5), so the leaf serializer is an argument. -/
structure LeafSerializer where
  /-- The bytes of a 32-bit leaf. -/
  put32 : BitVec 32 → List Byte
  /-- The bytes of a 64-bit leaf. -/
  put64 : BitVec 64 → List Byte
  /-- The fixed size of a serialized 32-bit leaf. -/
  size32 : Nat
  /-- The fixed size of a serialized 64-bit leaf. -/
  size64 : Nat

/-- A leaf serializer keeps its own contract when its sizes are as declared and different leaves have different bytes. -/
structure LeafOk (S : LeafSerializer) : Prop where
  length32 : ∀ v, (S.put32 v).length = S.size32
  length64 : ∀ v, (S.put64 v).length = S.size64
  inj32 : ∀ v w, S.put32 v = S.put32 w → v = w
  inj64 : ∀ v w, S.put64 v = S.put64 w → v = w

/-- `put_F`: the low limb's bytes, then the high limb's (20_memory.md R31). -/
def putF (S : LeafSerializer) : (F : Format) → F.Val → List Byte
  | .L32, v => S.put32 v
  | .L64, v => S.put64 v
  | .C lo hi, v => putF S lo v.1 ++ putF S hi v.2

/-- `size_F`: the sum of the two limbs' sizes (20_memory.md R31). -/
def sizeF (S : LeafSerializer) : Format → Nat
  | .L32 => S.size32
  | .L64 => S.size64
  | .C lo hi => sizeF S lo + sizeF S hi

/-- The `n` bytes of a number, least significant first. -/
def bytesLE : Nat → Nat → List Byte
  | 0, _ => []
  | n + 1, v => BitVec.ofNat 8 v :: bytesLE n (v / 256)

/-- Little-endian leaves of 4 and 8 bytes, one setting of `LEAF_BYTE_ORDER`. PRESUMED (K1): the leaf sizes. -/
def littleEndianLeaves : LeafSerializer :=
  { put32 := fun v => bytesLE 4 v.toNat, put64 := fun v => bytesLE 8 v.toNat, size32 := 4, size64 := 8 }

/-- Big-endian leaves of 4 and 8 bytes, another setting of `LEAF_BYTE_ORDER`. PRESUMED (K1): the leaf sizes. -/
def bigEndianLeaves : LeafSerializer :=
  { put32 := fun v => (bytesLE 4 v.toNat).reverse, put64 := fun v => (bytesLE 8 v.toNat).reverse, size32 := 4, size64 := 8 }

end Sys2Proof.Machine
end

