-- ==== Sys2Proof/Safety.lean ====
section
/-! DEFINITION. What a reader of the outputs may rely on, the runs of the host, and what counts as a safe run. -/

namespace Sys2Proof.Machine

/-- The result of the transaction whose outputs the ports show: `Y`, or none when `ILL = 1`, since a faulted transaction has no
result and no claim may depend on `Y` then (60_exceptions.md R110). -/
def State.result (s : State) : Option Bus := if s.ill then none else some s.y

/-- The results of the next `n` steps, in order; the list is shorter only if a step stops. -/
def results : Nat → State → List (Option Bus)
  | 0, _ => []
  | n + 1, s =>
    match step s with
    | .next t => t.result :: results n t
    | .fault _ => []
    | .refused _ => []

/-- The run of the host's list `ts` from `s`: the list of the transactions' results (10_state.md R24). -/
def runResults (ts : List Transaction) (s : State) : List (Option Bus) :=
  results ts.length { s with pending := ts }

/-- The result of `t` presented alone, as the first transaction ever. -/
def resultAlone (t : Transaction) : Option Bus :=
  match step { State.reset with pending := [t] } with
  | .next s => s.result
  | .fault _ => none
  | .refused _ => none

/-- The step as 10_state.md R23 puts it: a transaction with `ILL = 1` is the fault `IllegalCommand` and has no result; any other
is the step. Log entry 5. -/
def checkedStep (s : State) : Host.Outcome State Fault Refusal :=
  match step s with
  | .next t => if t.ill then .fault .illegalCommand else .next t
  | .fault r => .fault r
  | .refused r => .refused r

/-- A safe run of `n` steps: none of its transactions raises `IllegalCommand`. -/
def SafeRun : Nat → State → Prop
  | 0, _ => True
  | n + 1, s => ∃ t, checkedStep s = .next t ∧ SafeRun n t

/-- The outputs are `eval` of the present inputs, as at every moment (70_reset_and_hazards.md R120, R121): for a word that spells
a command, running it now changes nothing; for an illegal word, `ILL = 1`, whatever `Y` shows. -/
def OutputsCurrent (s : State) : Prop :=
  match decode s.cmd with
  | .ok i => exec i s = .next s
  | .error _ => s.ill = true

end Sys2Proof.Machine
end

