-- ==== Sys2Proof/WellFormed.lean ====
section
/-! DEFINITION. Which commands can be spelled. -/

namespace Sys2Proof

/-- A command can be spelled when its amount fits the 9-bit field, that is, when it is at most 511 (30_encoding.md R48).
Every other operand of every command is a format, and all eight format codes are used (R41). -/
def Instr.wellFormed : Instr → Bool
  | .shift _ amt => decide (amt < 512)
  | .add _ | .and _ | .or _ | .xor _ | .width _ | .fromint _ | .toint _ | .cmp _ | .minv _ | .maxv _ => true

end Sys2Proof
end

