-- ==== Sys2Proof/Certificates/Slice0/Obligations.lean ====
section
/-! DEFINITION. The statements for the provers, in the order of the rules of spec/: encoding, typed level, instructions, machine.
In an instruction statement the result is written on the bits `A[W-1:0]` and `B[W-1:0]` that the format uses (`portLow`), and the
next state is given whole, so that the statement is also the instruction's frame: every port and field but `Y` and `ILL` is as
before. -/

open Sys2Proof Sys2Proof.Machine

/-- Words written out from 30_encoding.md R40 to R42 and 95_test_vectors.md section 3.1 decode to the command they stand for. -/
def Obligations.SpecWordsDecode : Prop :=
  decode 0b0000000000000000#16 = .ok (.add .w32) ∧
  decode 0b0000000000010001#16 = .ok (.and .w64) ∧
  decode 0b0000000001000010#16 = .ok (.or .w160) ∧
  decode 0b0000000000110011#16 = .ok (.xor .w128) ∧
  decode 0b0001010000100100#16 = .ok (.shift .w96 40) ∧
  decode 0b1111111110000100#16 = .ok (.shift .w32 511) ∧
  decode 0b0000000001100101#16 = .ok (.width .w224) ∧
  decode 0b0000000001110110#16 = .ok (.fromint .w256) ∧
  decode 0b0000000000100111#16 = .ok (.toint .w96) ∧
  decode 0b0000000001011000#16 = .ok (.cmp .w192) ∧
  decode 0b0000000001001001#16 = .ok (.minv .w160) ∧
  decode 0b0000000001111010#16 = .ok (.maxv .w256) ∧
  decode 0b0000000000001011#16 = .error .reservedOp ∧
  decode 0b0000000010100000#16 = .error .nonzeroAmt ∧
  decode 0b1000000000001010#16 = .error .nonzeroAmt

/-- Decoding the word of a well-formed command gives the command back, with every operand (30_encoding.md R40 to R46). -/
def Obligations.DecodeOfEncode : Prop :=
  ∀ i : Instr, i.wellFormed = true → decode (encode i) = .ok i

/-- A word that spells a command is the word of that command, which is well formed: no bit of a legal word is dropped. -/
def Obligations.EncodeOfDecode : Prop :=
  ∀ (w : CmdWord) (i : Instr), decode w = .ok i → i.wellFormed = true ∧ encode i = w

/-- A word spells a command exactly when it matches the mask and pattern of the command's row and holds its format and amount
(30_encoding.md R43 to R45). -/
def Obligations.RowsMatchExactly : Prop :=
  ∀ (w : CmdWord) (i : Instr),
    decode w = .ok i ↔ w &&& i.mask = i.pattern ∧ fmtField w = i.fmt.code ∧ (amtField w).toNat = i.amount

/-- 30_encoding.md R47: the illegal words are exactly the two classes, both raise `IllegalCommand`, and no word runs as another
operation than the one its `op` names. That the step goes on after an illegal word is the model's choice (log entry 5), and so are
the numbered free `Y` and the counter of the raised state (log entry 4). -/
def Obligations.IllegalWordsExactly : Prop :=
  ∀ w : CmdWord,
    ((∃ e, decode w = .error e) ↔
      0xB ≤ (opField w).toNat ∨ ((opField w).toNat ≤ 0xA ∧ (opField w).toNat ≠ 0x4 ∧ (amtField w).toNat ≠ 0)) ∧
    (∀ s : State, s.present.cmd = w →
      0xB ≤ (opField w).toNat ∨ ((opField w).toNat ≠ 0x4 ∧ (amtField w).toNat ≠ 0) →
      step s = .next (raiseIllegalCommand s.present)) ∧
    (∀ i, decode w = .ok i → i.opcode = opField w)

/-- 30_encoding.md R41: every format code selects a format, the eight trees, and the widths in ascending order. -/
def Obligations.FormatCodes : Prop :=
  (∀ c : BitVec 3, (Fmt.ofCode c).code = c) ∧
  (∀ f : Fmt, Fmt.ofCode f.code = f ∧ (tree f).width = 32 * (f.code.toNat + 1)) ∧
  tree (Fmt.ofCode 0#3) = .L32 ∧
  tree (Fmt.ofCode 1#3) = .L64 ∧
  tree (Fmt.ofCode 2#3) = .C .L32 .L64 ∧
  tree (Fmt.ofCode 3#3) = .C .L64 .L64 ∧
  tree (Fmt.ofCode 4#3) = .C .L32 (tree .w128) ∧
  tree (Fmt.ofCode 5#3) = .C .L64 (tree .w128) ∧
  tree (Fmt.ofCode 6#3) = .C .L32 (tree .w192) ∧
  tree (Fmt.ofCode 7#3) = .C .L64 (tree .w192)

/-- 10_state.md R20: at every level the low limb occupies the low bits and the high limb the bits directly above, and the bus
value is the semantic value. -/
def Obligations.PackLayout : Prop :=
  (∀ (lo hi : Format) (v : (Format.C lo hi).Val),
    (packF (.C lo hi) v).extractLsb' 0 lo.width = packF lo v.1 ∧
    (packF (.C lo hi) v).extractLsb' lo.width hi.width = packF hi v.2) ∧
  ∀ (F : Format) (v : F.Val), (packF F v).toNat = valueF F v

/-- 10_state.md R21: `unpack_F` is the inverse of `pack_F` in both directions, and is `from_integer` of the bits' value. -/
def Obligations.UnpackInvertsPack : Prop :=
  ∀ F : Format, (∀ v : F.Val, unpackF F (packF F v) = v) ∧ (∀ b : BitVec F.width, packF F (unpackF F b) = b) ∧
    ∀ b : BitVec F.width, unpackF F b = fromF F b.toNat

/-- 40_conversion_width.md R65: round trip and modular reduction, for every integer, with the floored remainder. -/
def Obligations.ConversionLaws : Prop :=
  ∀ F : Format,
    (∀ n : Int, (valueF F (fromF F n) : Int) = n.fmod (2 ^ F.width)) ∧
    (∀ n : Int, 0 ≤ n → n < 2 ^ F.width → (valueF F (fromF F n) : Int) = n) ∧
    (∀ v : F.Val, fromF F (valueF F v) = v)

/-- 40_conversion_width.md R66: a cast keeps the low bits of the value, and is exact when it widens. -/
def Obligations.CastKeepsLowBits : Prop :=
  ∀ (G F : Format) (v : G.Val),
    valueF F (castF G F v) = valueF G v % 2 ^ F.width ∧
    (G.width ≤ F.width → valueF F (castF G F v) = valueF G v)

/-- 41_add.md R74, the flat law of addition, for every format tree. -/
def Obligations.AddFlatLaw : Prop :=
  ∀ (F : Format) (a b : F.Val), valueF F (addF F a b) = (valueF F a + valueF F b) % 2 ^ F.width

/-- 41_add.md R73 (a) to (e): the carry is 0 or 1; it is 1 exactly when the exact sum of the low limbs does not fit; comparing
with the other addend gives the same signal; adding zero carries nothing; sum and carry together lose no bit. -/
def Obligations.CarryLaws : Prop :=
  ∀ (lo : Format) (a b : lo.Val),
    (carryF lo (addF lo a b) a = 0 ∨ carryF lo (addF lo a b) a = 1) ∧
    (carryF lo (addF lo a b) a = 1 ↔ 2 ^ lo.width ≤ valueF lo a + valueF lo b) ∧
    ltF lo (addF lo a b) a = ltF lo (addF lo a b) b ∧
    (valueF lo b = 0 → carryF lo (addF lo a b) a = 0) ∧
    valueF lo (addF lo a b) + carryF lo (addF lo a b) a * 2 ^ lo.width = valueF lo a + valueF lo b

/-- 41_add.md R75: addition is commutative and associative and has the identity 0, at every format tree. -/
def Obligations.AdditionAlgebra : Prop :=
  ∀ (F : Format) (a b c : F.Val),
    addF F a b = addF F b a ∧ addF F (addF F a b) c = addF F a (addF F b c) ∧ addF F a (minF F) = a

/-- 41_add.md R75: the subtraction a host composes from MAXV, XOR, ADD and ADD is subtraction modulo `2^W`. -/
def Obligations.ComposedSubtraction : Prop :=
  ∀ (F : Format) (a b : F.Val),
    valueF F (addF F a (addF F (xorF F b (maxF F)) (fromF F 1))) = (valueF F a + (2 ^ F.width - valueF F b)) % 2 ^ F.width

/-- 42_bitwise.md R85, the flat law of the bitwise operations, for every format tree. -/
def Obligations.BitwiseFlatLaw : Prop :=
  ∀ (F : Format) (a b : F.Val),
    valueF F (andF F a b) = valueF F a &&& valueF F b ∧
    valueF F (orF F a b) = valueF F a ||| valueF F b ∧
    valueF F (xorF F a b) = valueF F a ^^^ valueF F b

/-- 43_shift.md R94, the contract of the shift, for every format tree and every amount, by value and by bits. -/
def Obligations.ShiftFlatLaw : Prop :=
  ∀ (F : Format) (a : F.Val) (x : Nat),
    valueF F (shiftF F a x) = (valueF F a <<< x) % 2 ^ F.width ∧
    ∀ i, i < F.width →
      (packF F (shiftF F a x)).getLsbD i = (decide (x ≤ i) && (packF F a).getLsbD (i - x))

/-- 43_shift.md R96: a shift by 0 is the identity. -/
def Obligations.ShiftByZero : Prop :=
  ∀ (F : Format) (a : F.Val), shiftF F a 0 = a

/-- 43_shift.md R92's remarks on the crossing bits: their two readings, their bound, and that the OR merges no two 1 bits, so
that it is an addition. -/
def Obligations.CrossingBits : Prop :=
  (∀ wl wh v x : Nat, v < 2 ^ wl →
    (0 < x → x < wl → crossing wl wh v x = v / 2 ^ (wl - x) % 2 ^ wh) ∧
    (wl ≤ x → crossing wl wh v x = (v <<< (x - wl)) % 2 ^ wh) ∧
    crossing wl wh v x < 2 ^ x) ∧
  ∀ (lo hi : Format) (l : lo.Val) (h : hi.Val) (x : Nat),
    orF hi (shiftF hi h x) (fromF hi (crossing lo.width hi.width (valueF lo l) x)) =
      addF hi (shiftF hi h x) (fromF hi (crossing lo.width hi.width (valueF lo l) x))

/-- 43_shift.md R93: the source's two-branch mechanism, with an inner logical right shift for negative inner amounts, agrees with
R92 on every composite and every positive amount. The mechanism's inner right shift is R93's reading (log entry 13). -/
def Obligations.SourceMechanismAgrees : Prop :=
  ∀ (lo hi : Format) (v : (Format.C lo hi).Val) (x : Nat), 0 < x → sourceShift lo hi v x = shiftF (.C lo hi) v x

/-- 44_compare_bounds.md R102: structural ordering is numeric ordering, and the unsigned comparison of the packed bits. -/
def Obligations.OrderIsNumeric : Prop :=
  ∀ (F : Format) (a b : F.Val),
    (ltF F a b = true ↔ valueF F a < valueF F b) ∧ (eqF F a b = true ↔ valueF F a = valueF F b) ∧
    ltF F a b = (packF F a).ult (packF F b) ∧ (eqF F a b = true ↔ a = b)

/-- 44_compare_bounds.md R100: exactly one of less, equal and greater holds. -/
def Obligations.OrderIsTotal : Prop :=
  ∀ (F : Format) (a b : F.Val),
    (ltF F a b = true ∨ eqF F a b = true ∨ ltF F b a = true) ∧
    ¬(ltF F a b = true ∧ eqF F a b = true) ∧ ¬(eqF F a b = true ∧ ltF F b a = true) ∧
    ¬(ltF F a b = true ∧ ltF F b a = true)

/-- 44_compare_bounds.md R105: the bounds, by value and in the source's product form. -/
def Obligations.BoundsValues : Prop :=
  (∀ F : Format, valueF F (minF F) = 0 ∧ valueF F (maxF F) = 2 ^ F.width - 1) ∧
  ∀ lo hi : Format, valueF (.C lo hi) (maxF (.C lo hi)) = (valueF hi (maxF hi) + 1) * (valueF lo (maxF lo) + 1) - 1

/-- 20_memory.md R31: with any leaf serializer that keeps its own contract, a composite is framed low limb first, its length is
the declared size, and different values have different bytes, so the bytes can be read back. That the round trip is stated as the
injectivity of `put`, over an assumed contract of the leaf serializer, is the model's choice (log entry 10): the spec gives no
deserializer. -/
def Obligations.SerializationDeterminesValue : Prop :=
  ∀ S : LeafSerializer, LeafOk S →
    (∀ (F : Format) (v : F.Val), (putF S F v).length = sizeF S F) ∧
    (∀ (F : Format) (v w : F.Val), putF S F v = putF S F w → v = w) ∧
    ∀ (lo hi : Format) (v : (Format.C lo hi).Val),
      putF S (.C lo hi) v = putF S lo v.1 ++ putF S hi v.2 ∧ sizeF S (.C lo hi) = sizeF S lo + sizeF S hi

/-- 41_add.md R70: ADD. Its word, the sum of the used bits modulo `2^W` on `Y`, and that this is the packed ripple-carry sum.
Nothing else changes and `ILL` is 0, for every operand. -/
def Obligations.AddDrivesSum : Prop :=
  ∀ (f : Fmt) (s : State),
    decode (zWord 0x0#4 f) = .ok (.add f) ∧
    exec (.add f) s = .next { s with y := (portLow f s.a + portLow f s.b).setWidth 256, ill := false } ∧
    packF (tree f) (addF (tree f) (unpackF (tree f) (portLow f s.a)) (unpackF (tree f) (portLow f s.b))) =
      portLow f s.a + portLow f s.b

/-- 42_bitwise.md R80: AND. Nothing else changes and `ILL` is 0, for every operand. -/
def Obligations.AndDrivesAnd : Prop :=
  ∀ (f : Fmt) (s : State),
    decode (zWord 0x1#4 f) = .ok (.and f) ∧
    exec (.and f) s = .next { s with y := (portLow f s.a &&& portLow f s.b).setWidth 256, ill := false } ∧
    packF (tree f) (andF (tree f) (unpackF (tree f) (portLow f s.a)) (unpackF (tree f) (portLow f s.b))) =
      portLow f s.a &&& portLow f s.b

/-- 42_bitwise.md R81: OR. Nothing else changes and `ILL` is 0, for every operand. -/
def Obligations.OrDrivesOr : Prop :=
  ∀ (f : Fmt) (s : State),
    decode (zWord 0x2#4 f) = .ok (.or f) ∧
    exec (.or f) s = .next { s with y := (portLow f s.a ||| portLow f s.b).setWidth 256, ill := false } ∧
    packF (tree f) (orF (tree f) (unpackF (tree f) (portLow f s.a)) (unpackF (tree f) (portLow f s.b))) =
      portLow f s.a ||| portLow f s.b

/-- 42_bitwise.md R82: XOR. Nothing else changes and `ILL` is 0, for every operand. -/
def Obligations.XorDrivesXor : Prop :=
  ∀ (f : Fmt) (s : State),
    decode (zWord 0x3#4 f) = .ok (.xor f) ∧
    exec (.xor f) s = .next { s with y := (portLow f s.a ^^^ portLow f s.b).setWidth 256, ill := false } ∧
    packF (tree f) (xorF (tree f) (unpackF (tree f) (portLow f s.a)) (unpackF (tree f) (portLow f s.b))) =
      portLow f s.a ^^^ portLow f s.b

/-- 43_shift.md R90: SHIFT. Its word for every amount 0 to 511, the flat left shift of the used bits on `Y`, that this is the
packed typed shift, and `Y` bit by bit. `B` is ignored, nothing else changes and `ILL` is 0, for every operand and amount. What SHIFT does with an
amount above 511, which has no word, is the model's choice (log entry 12). -/
def Obligations.ShiftDrivesShift : Prop :=
  ∀ (f : Fmt) (amt : Nat) (s : State),
    (amt < 512 → decode (sWord f (BitVec.ofNat 9 amt)) = .ok (.shift f amt)) ∧
    exec (.shift f amt) s = .next { s with y := (portLow f s.a <<< amt).setWidth 256, ill := false } ∧
    packF (tree f) (shiftF (tree f) (unpackF (tree f) (portLow f s.a)) amt) = portLow f s.a <<< amt ∧
    ∀ i, ((portLow f s.a <<< amt).setWidth 256).getLsbD i =
      (decide (amt ≤ i ∧ i < widthOf f) && s.a.getLsbD (i - amt))

/-- 40_conversion_width.md R60: TOINT drives the exact value of its typed operand, which is the used bits of `A`. -/
def Obligations.ToIntDrivesValue : Prop :=
  ∀ (f : Fmt) (s : State),
    decode (zWord 0x7#4 f) = .ok (.toint f) ∧
    exec (.toint f) s = .next { s with y := (portLow f s.a).setWidth 256, ill := false } ∧
    valueF (tree f) (unpackF (tree f) (portLow f s.a)) = ((portLow f s.a).setWidth 256).toNat

/-- 40_conversion_width.md R62: FROMINT narrows all 256 bits of `A` to the format, never failing. -/
def Obligations.FromIntNarrows : Prop :=
  ∀ (f : Fmt) (s : State),
    decode (zWord 0x6#4 f) = .ok (.fromint f) ∧
    exec (.fromint f) s = .next { s with y := BitVec.ofNat 256 (s.a.toNat % 2 ^ widthOf f), ill := false } ∧
    (packF (tree f) (fromF (tree f) s.a.toNat)).toNat = s.a.toNat % 2 ^ widthOf f

/-- 40_conversion_width.md R64: WIDTH drives the width of its format, whatever the operands. -/
def Obligations.WidthDrivesWidth : Prop :=
  ∀ (f : Fmt) (s : State),
    decode (zWord 0x5#4 f) = .ok (.width f) ∧
    exec (.width f) s = .next { s with y := BitVec.ofNat 256 (32 * (f.code.toNat + 1)), ill := false } ∧
    (tree f).width = 32 * (f.code.toNat + 1)

/-- 44_compare_bounds.md R101: CMP drives 1 for equal, 2 for less and 0 for greater, by the unsigned order of the used bits. -/
def Obligations.CmpDrivesOrder : Prop :=
  ∀ (f : Fmt) (s : State),
    decode (zWord 0x8#4 f) = .ok (.cmp f) ∧
    exec (.cmp f) s =
      .next { s with
        y := if portLow f s.a = portLow f s.b then 1 else if portLow f s.a < portLow f s.b then 2 else 0, ill := false } ∧
    ∀ t, exec (.cmp f) s = .next t →
      t.y.getLsbD 0 = eqF (tree f) (unpackF (tree f) (portLow f s.a)) (unpackF (tree f) (portLow f s.b)) ∧
      t.y.getLsbD 1 = ltF (tree f) (unpackF (tree f) (portLow f s.a)) (unpackF (tree f) (portLow f s.b)) ∧
      t.y ≠ 3

/-- 44_compare_bounds.md R103: MINV drives 0 at every format, whatever the operands. -/
def Obligations.MinvDrivesZero : Prop :=
  ∀ (f : Fmt) (s : State),
    decode (zWord 0x9#4 f) = .ok (.minv f) ∧
    exec (.minv f) s = .next { s with y := 0, ill := false } ∧
    (packF (tree f) (minF (tree f))).setWidth 256 = (0 : Bus)

/-- 44_compare_bounds.md R104: MAXV drives `2^W - 1`, all used bits ones and the rest zeros, whatever the operands. -/
def Obligations.MaxvDrivesOnes : Prop :=
  ∀ (f : Fmt) (s : State),
    decode (zWord 0xA#4 f) = .ok (.maxv f) ∧
    exec (.maxv f) s = .next { s with y := BitVec.ofNat 256 (2 ^ widthOf f - 1), ill := false } ∧
    packF (tree f) (maxF (tree f)) = BitVec.allOnes (widthOf f)

/-- 40_conversion_width.md R63: TOINT and FROMINT of one format are the same function of `A`, and FROMINT of `F` on a bus value
produced under `G` is the cast of R66. -/
def Obligations.ToIntIsFromIntOnTheBus : Prop :=
  (∀ (f : Fmt) (s : State), exec (.toint f) s = exec (.fromint f) s) ∧
  ∀ (g f : Fmt) (v : (tree g).Val) (s : State), s.a = (packF (tree g) v).setWidth 256 →
    exec (.fromint f) s =
      .next { s with y := (packF (tree f) (castF (tree g) (tree f) v)).setWidth 256, ill := false }

/-- 10_state.md R26 and the frame of all eleven instructions: running a command alters neither operand, nor the command word, nor
any field but `Y` and `ILL`, and `ILL` is 0 after it. -/
def Obligations.CommandsChangeOnlyOutputs : Prop :=
  ∀ (i : Instr) (s t : State), exec i s = .next t →
    t.cmd = s.cmd ∧ t.a = s.a ∧ t.b = s.b ∧ t.pending = s.pending ∧ t.draws = s.draws ∧ t.ill = false

/-- 10_state.md R25: for every command, port bits above the format's width never change the result, and the result never has a
bit set there. -/
def Obligations.UpperBitsIgnored : Prop :=
  ∀ (i : Instr) (s : State) (a' b' : Bus),
    portLow i.fmt a' = portLow i.fmt s.a → portLow i.fmt b' = portLow i.fmt s.b →
    ∃ t t', exec i s = .next t ∧ exec i { s with a := a', b := b' } = .next t' ∧ t'.y = t.y ∧
      t.y.toNat < 2 ^ widthOf i.fmt

/-- 30_encoding.md R44, R45: a port a command ignores never changes its result: `B` for SHIFT, WIDTH, FROMINT, TOINT, MINV and
MAXV, and `A` for WIDTH, MINV and MAXV. -/
def Obligations.IgnoredPorts : Prop :=
  ∀ (f : Fmt) (amt : Nat) (s : State) (v : Bus),
    (∀ i ∈ [Instr.shift f amt, .width f, .fromint f, .toint f, .minv f, .maxv f],
      ∃ t, exec i s = .next t ∧ exec i { s with b := v } = .next { t with b := v }) ∧
    ∀ i ∈ [Instr.width f, .minv f, .maxv f],
      ∃ t, exec i s = .next t ∧ exec i { s with a := v } = .next { t with a := v }

/-- One step presents the host's next transaction, or holds the inputs at the end of the host's list (log entry 7), and then runs
exactly the command the presented word spells. -/
def Obligations.StepRunsDecodedCommand : Prop :=
  ∀ (s : State),
    (∀ i, decode s.present.cmd = .ok i → step s = exec i s.present) ∧
    (s.pending = [] → s.present = s) ∧
    ∀ t ts, s.pending = t :: ts → s.present = { s with cmd := t.cmd, a := t.a, b := t.b, pending := ts }

/-- A word stored where the next step finds its command is the command the next step runs, on the operands that step would have
had. -/
def Obligations.StoredWordRuns : Prop :=
  ∀ (s : State) (nbits w : Nat) (i : Instr), decodeTableWord nbits w = some i →
    step (s.withFetchWord nbits w) = exec i { s.present with cmd := tableWord nbits w }

/-- 00_scope.md R7: a word that spells an operation has a result for every value of `A` and `B` and drives `ILL` with 0; nothing
else changes. -/
def Obligations.EveryLegalTransactionCompletes : Prop :=
  ∀ (s : State) (i : Instr), decode s.present.cmd = .ok i →
    ∃ v, step s = .next { s.present with y := v, ill := false }

/-- 60_exceptions.md R110: an illegal word drives `ILL = 1` and some `Y`, of which nothing is said, and changes nothing else; a
legal word drives `ILL = 0`; and the next transaction is unaffected: it has the result it would have had with the outputs put
back as they were. (The counter `draws` is the model's own, and nothing is said of it.) That the step goes on
is log entry 5, the free `Y` log entry 4. -/
def Obligations.IllegalCommandEffect : Prop :=
  ∀ s : State,
    (0xA < (opField s.present.cmd).toNat ∨
        ((opField s.present.cmd).toNat ≠ 0x4 ∧ (amtField s.present.cmd).toNat ≠ 0) →
      ∃ v n, step s = .next { s.present with y := v, ill := true, draws := n }) ∧
    (¬(0xA < (opField s.present.cmd).toNat ∨
        ((opField s.present.cmd).toNat ≠ 0x4 ∧ (amtField s.present.cmd).toNat ≠ 0)) →
      ∃ v, step s = .next { s.present with y := v, ill := false }) ∧
    ∀ t, step s = .next t →
      ∃ u u', step t = .next u ∧ step { t with y := s.y, ill := s.ill, draws := s.draws } = .next u' ∧
        u.ill = u'.ill ∧ u.result = u'.result

/-- 60_exceptions.md R115: `ILL` is not sticky. A legal transaction right after an illegal one leaves every port as if the illegal
one had never been presented. That the run goes on is log entry 5, the host's list log entry 6, the counter `draws` log entry 4. -/
def Obligations.IllegalCommandLeavesNoTrace : Prop :=
  ∀ (s : State) (bad good : Transaction) (ts : List Transaction) (e : IllegalWord) (i : Instr),
    s.pending = bad :: good :: ts → decode bad.cmd = .error e → decode good.cmd = .ok i →
    ∃ t u, step s = .next t ∧ t.ill = true ∧ step t = .next u ∧ u.ill = false ∧
      step { s with pending := good :: ts } = .next { u with draws := s.draws }

/-- 10_state.md R23 as it words the step: the checked step is the fault `IllegalCommand` exactly on an illegal word, and runs the
command on any other. -/
def Obligations.CheckedStepFaultsOnIllegal : Prop :=
  ∀ s : State,
    (checkedStep s = .fault .illegalCommand ↔ ∃ e, decode s.present.cmd = .error e) ∧
    ∀ i, decode s.present.cmd = .ok i → checkedStep s = exec i s.present

/-- 10_state.md R10, R23: the outputs of a transaction depend on its `CMD`, `A` and `B` and on nothing else: not on earlier
outputs, the host's other transactions or the draws. Under `ILL = 1` there is no result to compare (log entries 4,
5). -/
def Obligations.OutputsDependOnInputsAlone : Prop :=
  ∀ s s' : State, s.present.cmd = s'.present.cmd → s.present.a = s'.present.a → s.present.b = s'.present.b →
    ∃ t t', step s = .next t ∧ step s' = .next t' ∧ t.ill = t'.ill ∧ t.result = t'.result

/-- 10_state.md R24: in a run from any state, every transaction has the result it has alone. The host's list held in State is log
entry 6, and that the run goes on past an illegal word is log entry 5. -/
def Obligations.RunIsTransactionwise : Prop :=
  ∀ (ts : List Transaction) (s : State), runResults ts s = ts.map resultAlone

/-- 20_memory.md R34: transactions commute. In any two orders of one list, from any two states, each transaction has the same
result. The host's list held in State is log entry 6, and that the run goes on past an illegal word is log entry 5. -/
def Obligations.TransactionsCommute : Prop :=
  ∀ (ts us : List Transaction) (s s' : State), ts.Perm us →
    (ts.zip (runResults ts s)).Perm (us.zip (runResults us s'))

/-- A run is safe exactly when every word of the host's list spells a command (60_exceptions.md R110, R111). The checked step is log
entry 5, the host's list log entry 6. -/
def Obligations.SafeRunIffAllLegal : Prop :=
  ∀ (ts : List Transaction) (s : State),
    SafeRun ts.length { s with pending := ts } ↔ ∀ t ∈ ts, ∃ i, decode t.cmd = .ok i

/-- 70_reset_and_hazards.md R120, R121, the invariant: after every step the outputs are `eval` of the present inputs. It needs no
premise on the state before, since the unit keeps nothing. -/
def Obligations.StepKeepsOutputsCurrent : Prop :=
  ∀ s t : State, step s = .next t → OutputsCurrent t

/-- 70_reset_and_hazards.md R120's example: inputs held at zeros show `ADD.W32` of 0 and 0. That the first inputs are zeros is
the model's choice (log entry 2). -/
def Obligations.FirstOutputsCurrent : Prop :=
  OutputsCurrent State.reset ∧ decode State.reset.cmd = .ok (.add .w32) ∧ step State.reset = .next State.reset

/-- 20_memory.md R33: a legal transaction is idempotent: with the inputs held (log entry 7), presenting it again changes nothing. -/
def Obligations.TransactionIdempotent : Prop :=
  ∀ (s : State) (i : Instr), s.pending = [] → decode s.cmd = .ok i →
    ∃ t, step s = .next t ∧ step t = .next t
end

