-- ==== Sys2Proof/Laws/State.lean ====
section
/-! SUPPORT. What each update of the ports does to each field, and what `present` does. -/

namespace Sys2Proof.Machine

@[simp] theorem driveY_cmd (v : Bus) (s : State) : (driveY v s).cmd = s.cmd := rfl
@[simp] theorem driveY_a (v : Bus) (s : State) : (driveY v s).a = s.a := rfl
@[simp] theorem driveY_b (v : Bus) (s : State) : (driveY v s).b = s.b := rfl
@[simp] theorem driveY_y (v : Bus) (s : State) : (driveY v s).y = v := rfl
@[simp] theorem driveY_ill (v : Bus) (s : State) : (driveY v s).ill = false := rfl
@[simp] theorem driveY_pending (v : Bus) (s : State) : (driveY v s).pending = s.pending := rfl
@[simp] theorem driveY_draws (v : Bus) (s : State) : (driveY v s).draws = s.draws := rfl

@[simp] theorem raiseIllegalCommand_cmd (s : State) : (raiseIllegalCommand s).cmd = s.cmd := rfl
@[simp] theorem raiseIllegalCommand_a (s : State) : (raiseIllegalCommand s).a = s.a := rfl
@[simp] theorem raiseIllegalCommand_b (s : State) : (raiseIllegalCommand s).b = s.b := rfl
@[simp] theorem raiseIllegalCommand_ill (s : State) : (raiseIllegalCommand s).ill = true := rfl
@[simp] theorem raiseIllegalCommand_pending (s : State) : (raiseIllegalCommand s).pending = s.pending := rfl
@[simp] theorem raiseIllegalCommand_draws (s : State) : (raiseIllegalCommand s).draws = s.draws + 1 := rfl

/-- At the end of its list the host holds the inputs. -/
theorem present_nil (s : State) (h : s.pending = []) : s.present = s := by simp [State.present, h]

/-- The host presents the next transaction of its list. -/
theorem present_cons (s : State) (t : Transaction) (ts : List Transaction) (h : s.pending = t :: ts) :
    s.present = { s with cmd := t.cmd, a := t.a, b := t.b, pending := ts } := by simp [State.present, h]

@[simp] theorem present_y (s : State) : s.present.y = s.y := by unfold State.present; split <;> rfl
@[simp] theorem present_ill (s : State) : s.present.ill = s.ill := by unfold State.present; split <;> rfl
@[simp] theorem present_draws (s : State) : s.present.draws = s.draws := by unfold State.present; split <;> rfl
@[simp] theorem present_pending (s : State) : s.present.pending = s.pending.tail := by
  unfold State.present; split <;> simp [*]

@[simp] theorem result_driveY (v : Bus) (s : State) : (driveY v s).result = some v := rfl
@[simp] theorem result_raiseIllegalCommand (s : State) : (raiseIllegalCommand s).result = none := rfl

end Sys2Proof.Machine
end

