-- ==== Sys2Proof/Laws/Typed.lean ====
section
/-! SUPPORT. The value of a typed value: its range, that it determines the typed value, and how packing, unpacking, reading an
operand and driving a result look through it. -/

namespace Sys2Proof.Machine

/-- The range of a value (10_state.md R17). -/
theorem valueF_lt : ∀ (F : Format) (v : F.Val), valueF F v < 2 ^ F.width
  | .L32, v => BitVec.isLt (w := 32) v
  | .L64, v => BitVec.isLt (w := 64) v
  | .C lo hi, v => by
    have hl := valueF_lt lo v.1
    have hh : valueF hi v.2 + 1 ≤ 2 ^ hi.width := valueF_lt hi v.2
    have hm := Nat.mul_le_mul_right (2 ^ lo.width) hh
    simp only [valueF, Format.width, Nat.pow_add]
    rw [Nat.add_mul, Nat.one_mul] at hm
    rw [Nat.mul_comm (2 ^ lo.width)]
    omega

/-- The low limb is the value modulo `2^wl`. -/
theorem valueF_mod (lo hi : Format) (v : (Format.C lo hi).Val) :
    valueF (.C lo hi) v % 2 ^ lo.width = valueF lo v.1 := by
  simp only [valueF]
  rw [Nat.add_mul_mod_self_right, Nat.mod_eq_of_lt (valueF_lt lo v.1)]

/-- The high limb is the value divided by `2^wl`. -/
theorem valueF_div (lo hi : Format) (v : (Format.C lo hi).Val) :
    valueF (.C lo hi) v / 2 ^ lo.width = valueF hi v.2 := by
  simp only [valueF]
  rw [Nat.add_mul_div_right _ _ (Nat.two_pow_pos _), Nat.div_eq_of_lt (valueF_lt lo v.1), Nat.zero_add]

/-- Different typed values have different values (10_state.md R16). -/
theorem valueF_injective : ∀ (F : Format) (v w : F.Val), valueF F v = valueF F w → v = w
  | .L32, _, _, h => BitVec.eq_of_toNat_eq h
  | .L64, _, _, h => BitVec.eq_of_toNat_eq h
  | .C lo hi, v, w, h => Prod.ext
      (valueF_injective lo _ _ (by rw [← valueF_mod lo hi v, h, valueF_mod]))
      (valueF_injective hi _ _ (by rw [← valueF_div lo hi v, h, valueF_div]))

/-- The bus value of a packed typed value is its value (10_state.md R20). -/
@[simp] theorem toNat_packF : ∀ (F : Format) (v : F.Val), (packF F v).toNat = valueF F v
  | .L32, _ => rfl
  | .L64, _ => rfl
  | .C lo hi, v => by
    simp only [packF, valueF, BitVec.toNat_cast, BitVec.toNat_append]
    rw [← Nat.shiftLeft_add_eq_or_of_lt (by rw [toNat_packF]; exact valueF_lt lo v.1), Nat.shiftLeft_eq,
      toNat_packF hi, toNat_packF lo, Nat.add_comm]

/-- Unpacking keeps the value of the bits (10_state.md R21). -/
@[simp] theorem valueF_unpackF : ∀ (F : Format) (b : BitVec F.width), valueF F (unpackF F b) = b.toNat
  | .L32, _ => rfl
  | .L64, _ => rfl
  | .C lo hi, b => by
    have hb : b.toNat < 2 ^ (lo.width + hi.width) := b.isLt
    rw [Nat.pow_add, Nat.mul_comm] at hb
    simp only [unpackF, valueF, valueF_unpackF lo, valueF_unpackF hi, BitVec.extractLsb'_toNat, Nat.shiftRight_zero]
    rw [Nat.shiftRight_eq_div_pow, Nat.mod_eq_of_lt (Nat.div_lt_of_lt_mul (by rwa [Nat.mul_comm])), Nat.mul_comm]
    exact Nat.mod_add_div _ _

/-- The named formats fit the bus. -/
theorem widthOf_le (f : Fmt) : widthOf f ≤ 256 := by cases f <;> decide

/-- The bits of a port that a format uses, as a number. -/
@[simp] theorem toNat_portLow (f : Fmt) (port : Bus) : (portLow f port).toNat = port.toNat % 2 ^ widthOf f := by
  simp [portLow, BitVec.extractLsb'_toNat]

/-- Reading a typed operand: its value is the port's, reduced modulo `2^W` (10_state.md R25). -/
@[simp] theorem valueF_readTyped (f : Fmt) (port : Bus) :
    valueF (tree f) (readTyped f port) = port.toNat % 2 ^ widthOf f := by simp [readTyped]

/-- Driving a typed result: `Y` shows its value (10_state.md R25). -/
theorem driveTyped_eq (f : Fmt) (r : (tree f).Val) (s : State) :
    driveTyped f r s = driveY (BitVec.ofNat 256 (valueF (tree f) r)) s := by
  unfold driveTyped
  congr 1
  apply BitVec.eq_of_toNat_eq
  simp [BitVec.toNat_setWidth]

/-- The value of a typed result fits the bus, so `Y` shows it whole. -/
theorem valueF_lt_bus (f : Fmt) (r : (tree f).Val) : valueF (tree f) r < 2 ^ 256 :=
  Nat.lt_of_lt_of_le (valueF_lt (tree f) r) (Nat.pow_le_pow_right (by decide) (widthOf_le f))

end Sys2Proof.Machine
end

