-- ==== Sys2Proof/Laws/Exec.lean ====
section
/-! SUPPORT. All that running a command and one step can do. -/

namespace Sys2Proof.Machine

/-- What a command drives on `Y`, as a function of the two operand ports. -/
def busResult : Instr → Bus → Bus → Bus
  | .add f, a, b => (packF (tree f) (addF (tree f) (readTyped f a) (readTyped f b))).setWidth 256
  | .and f, a, b => (packF (tree f) (andF (tree f) (readTyped f a) (readTyped f b))).setWidth 256
  | .or f, a, b => (packF (tree f) (orF (tree f) (readTyped f a) (readTyped f b))).setWidth 256
  | .xor f, a, b => (packF (tree f) (xorF (tree f) (readTyped f a) (readTyped f b))).setWidth 256
  | .shift f amt, a, _ => (packF (tree f) (shiftF (tree f) (readTyped f a) amt)).setWidth 256
  | .width f, _, _ => BitVec.ofNat 256 (tree f).width
  | .fromint f, a, _ => (packF (tree f) (fromF (tree f) (readInteger a))).setWidth 256
  | .toint f, a, _ => BitVec.ofNat 256 (valueF (tree f) (readTyped f a))
  | .cmp f, a, b => (cmpBits (ltF (tree f) (readTyped f a) (readTyped f b)) (eqF (tree f) (readTyped f a) (readTyped f b))).setWidth 256
  | .minv f, _, _ => (packF (tree f) (minF (tree f))).setWidth 256
  | .maxv f, _, _ => (packF (tree f) (maxF (tree f))).setWidth 256

/-- Running a command drives `Y` with a function of `A` and `B` and does nothing else. -/
theorem exec_eq_driveY (i : Instr) (s : State) : exec i s = .next (driveY (busResult i s.a s.b) s) := by
  cases i <;> rfl

/-- One step, whole: the presented word spells a command, which is run, or it spells none and `IllegalCommand` is raised. -/
theorem step_cases {s t : State} (h : step s = .next t) :
    (∃ i, decode s.present.cmd = .ok i ∧ t = driveY (busResult i s.present.a s.present.b) s.present) ∨
    (∃ e, decode s.present.cmd = .error e ∧ t = raiseIllegalCommand s.present) := by
  unfold step evalPorts at h
  split at h
  · next e he => exact .inr ⟨e, he, by simpa using h.symm⟩
  · next i hi => exact .inl ⟨i, hi, by rw [exec_eq_driveY] at h; simpa using h.symm⟩

/-- A step that presents a word the decoder accepts. -/
theorem step_of_ok {s : State} {i : Instr} (h : decode s.present.cmd = .ok i) :
    step s = .next (driveY (busResult i s.present.a s.present.b) s.present) := by
  simp [step, evalPorts, h, exec_eq_driveY]

/-- A step that presents a word the decoder refuses. -/
theorem step_of_error {s : State} {e : IllegalWord} (h : decode s.present.cmd = .error e) :
    step s = .next (raiseIllegalCommand s.present) := by
  simp [step, evalPorts, h]

end Sys2Proof.Machine
end

