-- ==== Sys2Proof/Laws/PerInstr.lean ====
section
/-! SUPPORT. What holds of every command as syntax, one lemma per constructor. -/

namespace Sys2Proof.Laws.EncodedRow

/-- The word of a well-formed command matches the command's row of the opcode table, and its format field is the command's
format (30_encoding.md R40, R43 to R45). -/
def Statement (i : Instr) : Prop :=
  i.wellFormed = true → encode i &&& i.mask = i.pattern ∧ fmtField (encode i) = i.fmt.code

theorem add (f : Fmt) : Statement (.add f) := fun _ => by cases f <;> decide
theorem and (f : Fmt) : Statement (.and f) := fun _ => by cases f <;> decide
theorem or (f : Fmt) : Statement (.or f) := fun _ => by cases f <;> decide
theorem xor (f : Fmt) : Statement (.xor f) := fun _ => by cases f <;> decide
theorem shift (f : Fmt) (amt : Nat) : Statement (.shift f amt) := fun _ => by
  have key : ∀ (a : BitVec 9) (c : BitVec 3),
      ((a ++ c ++ 0x4#4 : CmdWord) &&& 0x000F#16 = 0x0004#16) ∧ fmtField (a ++ c ++ 0x4#4) = c := by
    intro a c
    constructor
    · ext k hk
      simp only [BitVec.getElem_and, BitVec.getElem_append]
      interval_cases k <;> simp
    · ext k hk
      simp only [fmtField, BitVec.getElem_extractLsb', BitVec.getLsbD_append]
      interval_cases k <;> simp
  exact key (BitVec.ofNat 9 amt) f.code
theorem width (f : Fmt) : Statement (.width f) := fun _ => by cases f <;> decide
theorem fromint (f : Fmt) : Statement (.fromint f) := fun _ => by cases f <;> decide
theorem toint (f : Fmt) : Statement (.toint f) := fun _ => by cases f <;> decide
theorem cmp (f : Fmt) : Statement (.cmp f) := fun _ => by cases f <;> decide
theorem minv (f : Fmt) : Statement (.minv f) := fun _ => by cases f <;> decide
theorem maxv (f : Fmt) : Statement (.maxv f) := fun _ => by cases f <;> decide

end Sys2Proof.Laws.EncodedRow
end

