-- ==== Sys2Proof/Laws/Serialize.lean ====
section
/-! SUPPORT. The little-endian and the big-endian leaf serializer keep their own contract. -/

namespace Sys2Proof.Machine

@[simp] theorem bytesLE_length : ∀ n v, (bytesLE n v).length = n
  | 0, _ => rfl
  | n + 1, v => by simp [bytesLE, bytesLE_length n]

/-- The bytes determine the number modulo its range. -/
theorem bytesLE_injective : ∀ n v w, v < 256 ^ n → w < 256 ^ n → bytesLE n v = bytesLE n w → v = w
  | 0, v, w, hv, hw, _ => by simp at hv hw; omega
  | n + 1, v, w, hv, hw, h => by
    simp only [bytesLE, List.cons.injEq] at h
    have hd := congrArg BitVec.toNat h.1
    simp only [BitVec.toNat_ofNat, Nat.reducePow] at hd
    have ht := bytesLE_injective n (v / 256) (w / 256)
      (Nat.div_lt_of_lt_mul (by rwa [Nat.mul_comm, ← Nat.pow_succ]))
      (Nat.div_lt_of_lt_mul (by rwa [Nat.mul_comm, ← Nat.pow_succ])) h.2
    omega

theorem littleEndianLeaves_ok : LeafOk littleEndianLeaves where
  length32 _ := bytesLE_length ..
  length64 _ := bytesLE_length ..
  inj32 v w h := BitVec.eq_of_toNat_eq (bytesLE_injective 4 _ _ v.isLt w.isLt h)
  inj64 v w h := BitVec.eq_of_toNat_eq (bytesLE_injective 8 _ _ v.isLt w.isLt h)

theorem bigEndianLeaves_ok : LeafOk bigEndianLeaves where
  length32 _ := by simp [bigEndianLeaves]
  length64 _ := by simp [bigEndianLeaves]
  inj32 v w h := littleEndianLeaves_ok.inj32 v w (List.reverse_injective h)
  inj64 v w h := littleEndianLeaves_ok.inj64 v w (List.reverse_injective h)

end Sys2Proof.Machine
end

