-- ==== Sys2Proof/Tests/Slice0.lean ====
section
/-! SUPPORT. Tests with results taken from spec/ (95_test_vectors.md unless another place is named), and one witness for the
hypotheses of each statement. -/

namespace Sys2Proof.Tests

open Sys2Proof.Machine

/-- The ports before the host presents one transaction. -/
def before (cmd : CmdWord) (a b : Bus) : State := { State.reset with pending := [⟨cmd, a, b⟩] }

/-- `Y` and `ILL` after one step. -/
def outputs (s : State) : Option (Bus × Bool) :=
  match step s with
  | .next t => some (t.y, t.ill)
  | .fault _ => none
  | .refused _ => none

/-! ### Well-formedness -/

theorem test_wellFormed_refuses_amount_512 : (Instr.shift .w32 512).wellFormed = false := by decide
theorem test_wellFormed_takes_amount_511 : (Instr.shift .w256 511).wellFormed = true := by decide

/-! ### Decoding: one word for each constructor, written out as amt, fmt, op (30_encoding.md R40 to R42), and section 3.1 -/

theorem test_decode_add : decode 0b000000000_000_0000#16 = .ok (.add .w32) := by decide
theorem test_decode_and : decode 0b000000000_001_0001#16 = .ok (.and .w64) := by decide
theorem test_decode_or : decode 0b000000000_010_0010#16 = .ok (.or .w96) := by decide
theorem test_decode_xor : decode 0b000000000_011_0011#16 = .ok (.xor .w128) := by decide
theorem test_decode_shift : decode 0b000101000_010_0100#16 = .ok (.shift .w96 40) := by decide
theorem test_decode_shift_largest : decode 0xff84#16 = .ok (.shift .w32 511) := by decide
theorem test_decode_width : decode 0b000000000_110_0101#16 = .ok (.width .w224) := by decide
theorem test_decode_fromint : decode 0b000000000_111_0110#16 = .ok (.fromint .w256) := by decide
theorem test_decode_toint : decode 0b000000000_100_0111#16 = .ok (.toint .w160) := by decide
theorem test_decode_cmp : decode 0b000000000_101_1000#16 = .ok (.cmp .w192) := by decide
theorem test_decode_minv : decode 0b000000000_100_1001#16 = .ok (.minv .w160) := by decide
theorem test_decode_maxv : decode 0b000000000_111_1010#16 = .ok (.maxv .w256) := by decide
theorem test_decode_reserved_op : [0x000b#16, 0x007b#16, 0x000f#16, 0xffff#16].map decode =
    [.error .reservedOp, .error .reservedOp, .error .reservedOp, .error .reservedOp] := by decide
theorem test_decode_nonzero_amt : [0x0080#16, 0x00a0#16, 0x0100#16, 0x0085#16, 0x800a#16].map decode =
    [.error .nonzeroAmt, .error .nonzeroAmt, .error .nonzeroAmt, .error .nonzeroAmt, .error .nonzeroAmt] := by decide

/-- Words of 30_encoding.md R51's form `(amt << 7) | (fmt << 4) | op`, as section 1 and 3 give them. -/
theorem test_encode : [encode (.shift .w224 200), encode (.cmp .w256), encode (.shift .w256 511)] =
    [0x6464#16, 0x0078#16, 0xfff4#16] := by decide
theorem test_pseudo : [pseudoLit .w128, pseudoCast .w32, pseudoShl .w96 40].map encode = [0x0036#16, 0x0006#16, 0x1424#16] := by
  decide

/-! ### Instructions (sections 3.2 to 3.6), at most two each -/

/-- A carry through bits 64, 128 and 192. -/
theorem test_add_ripples : outputs (before 0x0070 0xffffffffffffffffffffffffffffffffffffffffffffffff 1) =
    some (0x1000000000000000000000000000000000000000000000000, false) := by decide
/-- Bit 224 of `A` ignored, then wraparound at 224. -/
theorem test_add_wraps : outputs (before 0x0060 0x1ffffffffffffffffffffffffffffffffffffffffffffffffffffffff 1) =
    some (0, false) := by decide
theorem test_and : outputs (before 0x0021 0xf0f0f0f00123456789abcdefffff0000 0x0ff00ff0fedcba987654321000ffff00) =
    some (0xff0000, false) := by decide
theorem test_or : outputs (before 0x0022 0xf0f0f0f00123456789abcdefffff0000 0x0ff00ff0fedcba987654321000ffff00) =
    some (0xffffffffffffffffffffff00, false) := by decide
theorem test_xor : outputs (before 0x0023 0xf0f0f0f00123456789abcdefffff0000 0x0ff00ff0fedcba987654321000ffff00) =
    some (0xffffffffffffffffff00ff00, false) := by decide
/-- Crossings at bit 32 and at bit 96 in one shift. -/
theorem test_shift_crosses_twice : outputs (before 0x10c4 0x9abcdef012345678 0) =
    some (0x13579bde02468acf000000000, false) := by decide
/-- The source's second branch, equal widths, amount above the low width. -/
theorem test_shift_past_low_limb : outputs (before 0x2234 0x0123456789abcdeffedcba9876543210 0) =
    some (0xedcba987654321000000000000000000, false) := by decide
theorem test_width : outputs (before 0x0075 0xdead 0) = some (0x100, false) := by decide
theorem test_fromint : outputs (before 0x0006 0x123456789 0) = some (0x23456789, false) := by decide
theorem test_toint : outputs (before 0x0017 0x10000000000000005 0) = some (5, false) := by decide
/-- Greater although the low limb is smaller. -/
theorem test_cmp_high_limb_decides : outputs (before 0x0028 0x100000000 0xffffffff) = some (0, false) := by decide
/-- Less and equal; bit 32 of `A` ignored. -/
theorem test_cmp_less_and_equal :
    [outputs (before 0x0038 0xffffffffffffffff 0x10000000000000000), outputs (before 0x0008 0x100000001 1)] =
      [some (2, false), some (1, false)] := by decide
theorem test_minv : outputs (before 0x0049 0xdead 0xbeef) = some (0, false) := by decide
theorem test_maxv : outputs (before 0x002a 0 0) = some (0xffffffffffffffffffffffff, false) := by decide

/-- An illegal word: `ILL = 1`, no result (60_exceptions.md R110), and no fault of the plain step. -/
theorem test_illegal : (outputs (before 0x00a0 7 9)).map Prod.snd = some true ∧ resultAlone ⟨0x00a0, 7, 9⟩ = none := by
  decide

/-- The shape of program P5, lines 1, 3 and 4, with smaller operands worked by hand: the illegal word has no result and the next
transaction is unaffected. -/
theorem test_run_over_illegal :
    runResults [⟨0x0066, 0xdeadbeef, 0⟩, ⟨0x00a0, 1, 2⟩, ⟨0x0062, 0xadbeef00, 0xdeadbeef⟩] State.reset =
      [some 0xdeadbeef, none, some 0xffbfffef] := by decide

/-! ### The typed level -/

/-- Section 3.2's vectors that the port cannot carry. -/
theorem test_from_negative : fromF (.C .L32 .L64) (-1) = (0xffffffff#32, 0xffffffffffffffff#64) := by decide
theorem test_from_above_the_bus : fromF (.C .L64 .L64) (2 ^ 150 * 2 ^ 150 + 7) = (7#64, 0#64) := by decide
/-- 41_add.md R72 and 43_shift.md R92 on a format with the low limb wider than the high limb, worked by hand. -/
theorem test_wide_low_limb :
    addF (.C .L64 .L32) (0xffffffffffffffff#64, 0xffffffff#32) (1#64, 0#32) = (0#64, 0#32) ∧
    shiftF (.C .L64 .L32) (0x8000000000000001#64, 1#32) 4 = (0x10#64, 0x18#32) := by decide

/-- 20_memory.md R31: low limb first at both settings of the leaf order, worked by hand. -/
theorem test_put :
    putF littleEndianLeaves (tree .w96) (0x11223344#32, 0x5566778899aabbcc#64) =
      [0x44, 0x33, 0x22, 0x11, 0xcc, 0xbb, 0xaa, 0x99, 0x88, 0x77, 0x66, 0x55] ∧
    putF bigEndianLeaves (tree .w96) (0x11223344#32, 0x5566778899aabbcc#64) =
      [0x11, 0x22, 0x33, 0x44, 0x55, 0x66, 0x77, 0x88, 0x99, 0xaa, 0xbb, 0xcc] := by decide

/-- 70_reset_and_hazards.md R120's example: the first outputs. -/
theorem test_first_outputs : outputs State.reset = some (0, false) := by decide

/-! ### Witnesses: for each statement with hypotheses, values that meet them -/

theorem witness_DecodeOfEncode : (Instr.shift .w32 511).wellFormed = true := by decide
theorem witness_EncodeOfDecode : decode 0x1424#16 = .ok (.shift .w96 40) := by decide
theorem witness_IllegalWordsExactly :
    ((before 0x000b 0 0).present.cmd = 0x000b#16 ∧ 0xB ≤ (opField 0x000b#16).toNat) ∧
    ((before 0x008a 0 0).present.cmd = 0x008a#16 ∧ (opField 0x008a#16).toNat ≠ 0x4 ∧ (amtField 0x008a#16).toNat ≠ 0) ∧
    decode 0x000a#16 = .ok (.maxv .w32) := by decide
theorem witness_ConversionLaws : (0 : Int) ≤ 2 ^ 96 - 1 ∧ (2 ^ 96 - 1 : Int) < 2 ^ (tree .w96).width := by decide
theorem witness_CastKeepsLowBits : (tree .w32).width ≤ (tree .w64).width := by decide
theorem witness_CarryLaws : valueF .L32 (0#32) = 0 := by decide
theorem witness_CrossingBits : (7 < 2 ^ 3 ∧ 0 < 2 ∧ 2 < 3) ∧ 3 ≤ 3 := by decide
theorem witness_SourceMechanismAgrees : 0 < 1 := by decide
theorem witness_ShiftDrivesShift : 511 < 512 := by simp
theorem witness_SerializationDeterminesValue :
    LeafOk littleEndianLeaves ∧ putF littleEndianLeaves .L32 (5#32) = putF littleEndianLeaves .L32 (5#32) :=
  ⟨littleEndianLeaves_ok, rfl⟩
theorem witness_CmpDrivesOrder : ∃ t, exec (.cmp .w96) (before 0 1 2) = .next t := ⟨_, rfl⟩
theorem witness_ToIntIsFromIntOnTheBus :
    ({ State.reset with a := 0x500000007 } : State).a = (packF (tree .w96) (7#32, 5#64)).setWidth 256 := by decide
theorem witness_CommandsChangeOnlyOutputs : ∃ t, exec (.add .w96) (before 0 1 2) = .next t := ⟨_, rfl⟩
theorem witness_UpperBitsIgnored :
    portLow (Instr.add .w96).fmt 0x1000000000000000000000001 = portLow (Instr.add .w96).fmt 1 ∧
    portLow (Instr.add .w96).fmt 0x8000000000000000000000000000000000000000000000000000000000000000 = portLow (Instr.add .w96).fmt 0 := by decide
theorem witness_StepRunsDecodedCommand :
    decode (before 0x0030 1 2).present.cmd = .ok (.add .w128) ∧ State.reset.pending = [] ∧
    (before 0x0030 1 2).pending = [⟨0x0030, 1, 2⟩] := by decide
theorem witness_StoredWordRuns : decodeTableWord 16 0x1424 = some (.shift .w96 40) := by decide
theorem witness_EveryLegalTransactionCompletes : decode (before 0x007a 1 2).present.cmd = .ok (.maxv .w256) := by decide
theorem witness_IllegalCommandEffect :
    0xA < (opField (before 0x000b 0 0).present.cmd).toNat ∧
    ((opField (before 0x008a 0 0).present.cmd).toNat ≠ 0x4 ∧ (amtField (before 0x008a 0 0).present.cmd).toNat ≠ 0) ∧
    ¬(0xA < (opField (before 0x000a 0 0).present.cmd).toNat ∨
      ((opField (before 0x000a 0 0).present.cmd).toNat ≠ 0x4 ∧ (amtField (before 0x000a 0 0).present.cmd).toNat ≠ 0)) := by
  decide
theorem witness_IllegalCommandEffect_next : ∃ t, step (before 0x000b 0 0) = .next t :=
  ⟨_, step_of_error (e := .reservedOp) (by decide)⟩
theorem witness_IllegalCommandLeavesNoTrace :
    ({ State.reset with pending := [⟨0x00a0, 1, 2⟩, ⟨0x0062, 3, 4⟩] } : State).pending =
      [⟨0x00a0, 1, 2⟩, ⟨0x0062, 3, 4⟩] ∧
    decode 0x00a0#16 = .error .nonzeroAmt ∧ decode 0x0062#16 = .ok (.or .w224) := by decide
theorem witness_CheckedStepFaultsOnIllegal :
    decode (before 0x0030 1 2).present.cmd = .ok (.add .w128) ∧ decode (before 0x000b 1 2).present.cmd = .error .reservedOp := by
  decide
theorem witness_OutputsDependOnInputsAlone :
    (before 0x0030 1 2).present.cmd = ({ before 0x0030 1 2 with y := 9, ill := true, draws := 5 } : State).present.cmd ∧
    (before 0x0030 1 2).present.a = ({ before 0x0030 1 2 with y := 9, ill := true, draws := 5 } : State).present.a ∧
    (before 0x0030 1 2).present.b = ({ before 0x0030 1 2 with y := 9, ill := true, draws := 5 } : State).present.b := by decide
theorem witness_TransactionsCommute :
    [(⟨0x0030, 1, 2⟩ : Transaction), ⟨0x0066, 3, 4⟩].Perm [⟨0x0066, 3, 4⟩, ⟨0x0030, 1, 2⟩] := by decide
theorem witness_StepKeepsOutputsCurrent : ∃ t, step (before 0x0030 1 2) = .next t :=
  ⟨_, step_of_ok (i := .add .w128) (by decide)⟩
theorem witness_TransactionIdempotent :
    ({ State.reset with cmd := 0x0030, a := 1, b := 2 } : State).pending = [] ∧
    decode ({ State.reset with cmd := 0x0030, a := 1, b := 2 } : State).cmd = .ok (.add .w128) := by decide

end Sys2Proof.Tests
end

section
/-! Proofs of the statements of 00_scope.md. -/

namespace Sys2Proof.Machine

/-- Settles O41: the step on an accepted word is `step_of_ok`, and what it puts on `Y` is the command's `busResult`. -/
theorem everyLegalTransactionCompletes : Obligations.EveryLegalTransactionCompletes := by
  intro s i hdecode
  exact ⟨busResult i s.present.a s.present.b, step_of_ok hdecode⟩

end Sys2Proof.Machine
end

section
/-! Facts about the typed level and about the outputs of a step, for the statements of 10_state.md. -/

namespace Sys2Proof.Machine

/-- `Nat.mod_mul` for an integer: the digits of `n` to the bases `a` and `b`. -/
theorem int_emod_mul (n : Int) {a b : Int} (ha : 0 < a) (hb : 0 < b) : n % (a * b) = n % a + n / a % b * a := by
  have ha0 := Int.emod_nonneg n ha.ne'
  have hal := Int.emod_lt_of_pos n ha
  have hb0 := Int.emod_nonneg (n / a) hb.ne'
  have hbl := Int.emod_lt_of_pos (n / a) hb
  have hsplit : n % a + n / a % b * a + a * b * (n / a / b) = n := by
    linear_combination Int.emod_add_mul_ediv n a + a * Int.emod_add_mul_ediv (n / a) b
  calc n % (a * b) = (n % a + n / a % b * a + a * b * (n / a / b)) % (a * b) := by rw [hsplit]
    _ = (n % a + n / a % b * a) % (a * b) := Int.add_mul_emod_self_left ..
    _ = n % a + n / a % b * a := Int.emod_eq_of_lt (by positivity) (by nlinarith)

/-- The value of a taken integer is the integer modulo `2^W`, with the floored remainder (40_conversion_width.md R61, R65). -/
theorem valueF_fromF : ∀ (F : Format) (n : Int), (valueF F (fromF F n) : Int) = n.fmod (2 ^ F.width)
  | .L32, n => by simp [valueF, fromF, Format.width, BitVec.toNat_ofInt, Int.fmod_eq_emod_of_nonneg, Int.emod_nonneg]
  | .L64, n => by simp [valueF, fromF, Format.width, BitVec.toNat_ofInt, Int.fmod_eq_emod_of_nonneg, Int.emod_nonneg]
  | .C lo hi, n => by
    have pos (k : Nat) : (0 : Int) < 2 ^ k := by positivity
    rw [Int.fmod_eq_emod_of_nonneg _ (pos _).le]
    simp only [valueF, fromF, Format.width, Nat.cast_add, Nat.cast_mul, Nat.cast_pow, Nat.cast_ofNat, valueF_fromF lo,
      valueF_fromF hi, Int.fmod_eq_emod_of_nonneg _ (pos _).le, Int.fdiv_eq_ediv_of_nonneg _ (pos _).le, Int.emod_emod,
      pow_add]
    exact (int_emod_mul n (pos _) (pos _)).symm

/-- The same for a natural number. -/
@[simp] theorem valueF_fromF_natCast (F : Format) (n : Nat) : valueF F (fromF F n) = n % 2 ^ F.width := by
  have h := valueF_fromF F n
  rw [Int.fmod_eq_emod_of_nonneg _ (by positivity)] at h
  exact_mod_cast h

/-- FROMINT reads its port as a typed operand of the result's format (40_conversion_width.md R63). -/
theorem fromF_readInteger (f : Fmt) (port : Bus) : fromF (tree f) (readInteger port) = readTyped f port :=
  valueF_injective _ _ _ (by simp [readInteger])

/-- Only the low `W` bits of a port are read. -/
theorem readTyped_congr {f : Fmt} {p q : Bus} (h : portLow f p = portLow f q) : readTyped f p = readTyped f q :=
  congrArg (unpackF (tree f)) h

/-- What a command drives depends on the low `W` bits of its operands alone (10_state.md R25). -/
theorem busResult_congr {i : Instr} {a a' b b' : Bus} (ha : portLow i.fmt a' = portLow i.fmt a)
    (hb : portLow i.fmt b' = portLow i.fmt b) : busResult i a' b' = busResult i a b := by
  cases i with
  | width | minv | maxv => rfl
  | shift f _ | fromint f | toint f => simp only [busResult, fromF_readInteger, readTyped_congr (f := f) ha]
  | add f | and f | or f | xor f | cmp f =>
    simp only [busResult, readTyped_congr (f := f) ha, readTyped_congr (f := f) hb]

/-- A packed typed result on the bus is below `2^W`. -/
theorem setWidth_packF_lt (f : Fmt) (r : (tree f).Val) : ((packF (tree f) r).setWidth 256).toNat < 2 ^ widthOf f := by
  rw [BitVec.toNat_setWidth, toNat_packF, Nat.mod_eq_of_lt (valueF_lt_bus f r)]
  exact valueF_lt (tree f) r

/-- An integer below `2^W` is below `2^W` on the bus. -/
theorem ofNat_lt {n w : Nat} (h : n < 2 ^ w) : (BitVec.ofNat 256 n).toNat < 2 ^ w := by
  rw [BitVec.toNat_ofNat]
  exact (Nat.mod_le _ _).trans_lt h

/-- The two bits of CMP on the bus are below `2^W`, since every format has two bits. -/
theorem setWidth_cmpBits_lt (f : Fmt) (bits : BitVec 2) : (bits.setWidth 256).toNat < 2 ^ widthOf f := by
  have hW : 2 ^ 2 ≤ 2 ^ widthOf f := Nat.pow_le_pow_right (by decide) (by cases f <;> decide)
  have hbits := bits.isLt
  rw [BitVec.toNat_setWidth]
  exact (Nat.mod_le _ _).trans_lt (hbits.trans_le hW)

/-- No command drives a bit above its format's width (10_state.md R25). -/
theorem busResult_lt (i : Instr) (a b : Bus) : (busResult i a b).toNat < 2 ^ widthOf i.fmt := by
  cases i with
  | width f => exact ofNat_lt Nat.lt_two_pow_self
  | toint f => exact ofNat_lt (valueF_lt (tree f) _)
  | cmp f => exact setWidth_cmpBits_lt f _
  | add f | and f | or f | xor f | shift f _ | fromint f | minv f | maxv f => exact setWidth_packF_lt f _

/-- `eval(CMD, A, B)` of 10_state.md R23 as a reader sees it: what a legal word drives on `Y`, or no result. -/
def evalResult (cmd : CmdWord) (a b : Bus) : Option Bus :=
  match decode cmd with
  | .ok i => some (busResult i a b)
  | .error _ => none

/-- `ILL` is 1 exactly when there is no result. -/
theorem ill_eq_isNone_result (s : State) : s.ill = s.result.isNone := by
  unfold State.result
  cases s.ill <;> rfl

/-- Every step completes, presents the next transaction of the list, and shows `eval` of the presented inputs. -/
theorem step_evaluates (s : State) :
    ∃ t, step s = .next t ∧ t.pending = s.pending.tail ∧ t.result = evalResult s.present.cmd s.present.a s.present.b := by
  cases h : decode s.present.cmd with
  | ok i => exact ⟨_, step_of_ok h, by simp [evalResult, h]⟩
  | error e => exact ⟨_, step_of_error h, by simp [evalResult, h]⟩

/-- The result of a transaction alone is `eval` of its inputs. -/
theorem resultAlone_eq (t : Transaction) : resultAlone t = evalResult t.cmd t.a t.b := by
  obtain ⟨u, hstep, -, hresult⟩ := step_evaluates { State.reset with pending := [t] }
  simp only [resultAlone, hstep, hresult, State.present]

/-- As many steps as the host's list is long give the results of its transactions alone, from any state. -/
theorem results_length_pending : ∀ (ts : List Transaction) (s : State), s.pending = ts →
    results ts.length s = ts.map resultAlone
  | [], _, _ => rfl
  | t :: ts, s, hs => by
    obtain ⟨u, hstep, hpending, hresult⟩ := step_evaluates s
    rw [hs, List.tail_cons] at hpending
    rw [present_cons s t ts hs] at hresult
    simp only [List.length_cons, results, hstep, hresult, results_length_pending ts u hpending, List.map_cons, resultAlone_eq]

/-- The checked step runs an accepted word. -/
theorem checkedStep_of_ok {s : State} {i : Instr} (h : decode s.present.cmd = .ok i) :
    checkedStep s = exec i s.present := by
  simp [checkedStep, step_of_ok h, exec_eq_driveY]

/-- The checked step faults on a refused word. -/
theorem checkedStep_of_error {s : State} {e : IllegalWord} (h : decode s.present.cmd = .error e) :
    checkedStep s = .fault .illegalCommand := by
  simp [checkedStep, step_of_error h]

end Sys2Proof.Machine
end

section
/-! Proofs of the statements of 10_state.md. -/

namespace Sys2Proof.Machine

/-- Settles O7: the value of a composite has the low limb's value as remainder and the high limb's as quotient by `2^wl`. -/
theorem packLayout : Obligations.PackLayout := by
  refine ⟨fun lo hi v => ⟨BitVec.eq_of_toNat_eq ?_, BitVec.eq_of_toNat_eq ?_⟩, toNat_packF⟩
  · rw [BitVec.extractLsb'_toNat, toNat_packF, Nat.shiftRight_zero, valueF_mod, toNat_packF]
  · rw [BitVec.extractLsb'_toNat, toNat_packF, Nat.shiftRight_eq_div_pow, valueF_div, toNat_packF,
      Nat.mod_eq_of_lt (valueF_lt hi v.2)]

/-- Settles O8: both sides of each equation have the same value, and the value determines bits and typed values. -/
theorem unpackInvertsPack : Obligations.UnpackInvertsPack := by
  refine fun F => ⟨fun v => valueF_injective F _ _ ?_, fun b => BitVec.eq_of_toNat_eq ?_,
    fun b => valueF_injective F _ _ ?_⟩
  · rw [valueF_unpackF, toNat_packF]
  · rw [toNat_packF, valueF_unpackF]
  · rw [valueF_unpackF, valueF_fromF_natCast, Nat.mod_eq_of_lt b.isLt]

/-- Settles O37: what a command drives reads the low `W` bits of its operands alone and is below `2^W`. -/
theorem upperBitsIgnored : Obligations.UpperBitsIgnored := by
  intro i s a' b' ha hb
  exact ⟨_, _, exec_eq_driveY i s, exec_eq_driveY i _, busResult_congr ha hb, busResult_lt i s.a s.b⟩

/-- Settles O45: both results are `eval` of the same inputs, and `ILL` says whether there is a result. -/
theorem outputsDependOnInputsAlone : Obligations.OutputsDependOnInputsAlone := by
  intro s s' hcmd ha hb
  obtain ⟨t, hstep, -, hresult⟩ := step_evaluates s
  obtain ⟨t', hstep', -, hresult'⟩ := step_evaluates s'
  have hsame : t.result = t'.result := by rw [hresult, hresult', hcmd, ha, hb]
  exact ⟨t, t', hstep, hstep', by rw [ill_eq_isNone_result, hsame, ill_eq_isNone_result], hsame⟩

/-- Settles O46, by induction on the host's list. -/
theorem runIsTransactionwise : Obligations.RunIsTransactionwise :=
  fun ts s => results_length_pending ts { s with pending := ts } rfl

/-- Settles O36: a command only drives `Y`. -/
theorem commandsChangeOnlyOutputs : Obligations.CommandsChangeOnlyOutputs := by
  intro i s t h
  obtain rfl : driveY (busResult i s.a s.b) s = t := by simpa [exec_eq_driveY] using h
  simp

/-- Settles O44: `exec` answers no fault, so an accepted word never gives one. -/
theorem checkedStepFaultsOnIllegal : Obligations.CheckedStepFaultsOnIllegal := by
  refine fun s => ⟨⟨fun hfault => ?_, fun ⟨e, he⟩ => checkedStep_of_error he⟩, fun i hi => checkedStep_of_ok hi⟩
  cases h : decode s.present.cmd with
  | error e => exact ⟨e, rfl⟩
  | ok i => simp [checkedStep_of_ok h, exec_eq_driveY] at hfault

end Sys2Proof.Machine
end

section
/-! Facts about the serialized bytes, about a step with the inputs held and about the pairs of a run, for the statements of 20_memory.md. -/

namespace Sys2Proof.Machine

/-- The bytes of a typed value are as many as its format declares (20_memory.md R31). -/
theorem putF_length {S : LeafSerializer} (hS : LeafOk S) : ∀ (F : Format) (v : F.Val), (putF S F v).length = sizeF S F
  | .L32, v => hS.length32 v
  | .L64, v => hS.length64 v
  | .C lo hi, v => by simp only [putF, sizeF, List.length_append, putF_length hS lo, putF_length hS hi]

/-- The bytes determine the typed value: the declared size of the low limb says where the high limb's bytes begin. -/
theorem putF_injective {S : LeafSerializer} (hS : LeafOk S) : ∀ (F : Format) (v w : F.Val), putF S F v = putF S F w → v = w
  | .L32, v, w, h => hS.inj32 v w h
  | .L64, v, w, h => hS.inj64 v w h
  | .C lo hi, v, w, h => by
    have hlen : (putF S lo v.1).length = (putF S lo w.1).length := by rw [putF_length hS, putF_length hS]
    obtain ⟨hlow, hhigh⟩ := List.append_inj h hlen
    exact Prod.ext (putF_injective hS lo _ _ hlow) (putF_injective hS hi _ _ hhigh)

/-- A step with the inputs held runs the word on CMD on the operands as they stand (log entry 7). -/
theorem step_held_of_ok {s : State} {i : Instr} (hpending : s.pending = []) (hdecode : decode s.cmd = .ok i) :
    step s = .next (driveY (busResult i s.a s.b) s) := by
  have hpresent := present_nil s hpending
  simpa only [hpresent] using step_of_ok (s := s) (by rwa [hpresent])

/-- The transactions of a run, each with its result: the result depends on the transaction alone (10_state.md R24). -/
theorem zip_runResults (ts : List Transaction) (s : State) :
    ts.zip (runResults ts s) = ts.map fun t => (t, resultAlone t) := by
  rw [runIsTransactionwise]
  simpa using List.zip_map' (f := id) (g := resultAlone) (l := ts)

end Sys2Proof.Machine
end

section
/-! Proofs of the statements of 20_memory.md. -/

namespace Sys2Proof.Machine

/-- Settles O23: length and injectivity by induction on the format; the framing is the definition of `put_F` and `size_F`. -/
theorem serializationDeterminesValue : Obligations.SerializationDeterminesValue :=
  fun _ hS => ⟨putF_length hS, putF_injective hS, fun _ _ _ => ⟨rfl, rfl⟩⟩

/-- Settles O47: a run maps each transaction of its list to a pair that depends on the transaction alone. -/
theorem transactionsCommute : Obligations.TransactionsCommute := by
  intro ts us s s' hperm
  rw [zip_runResults, zip_runResults]
  exact hperm.map _

/-- Settles O51: a legal step leaves the inputs held, so the second step drives the value that `Y` already shows. -/
theorem transactionIdempotent : Obligations.TransactionIdempotent := by
  intro s i hpending hdecode
  exact ⟨driveY (busResult i s.a s.b) s, step_held_of_ok hpending hdecode, step_held_of_ok hpending hdecode⟩

end Sys2Proof.Machine
end

section
/-! Facts about the format codes, the decoder, the ports a command reads and the word a step finds, for the statements of 30_encoding.md. -/

namespace Sys2Proof

/-- The format a code selects has that code: no code is reserved (30_encoding.md R41). -/
@[simp] theorem code_ofCode : ∀ c : BitVec 3, (Fmt.ofCode c).code = c := by decide

/-- The code of a format selects the format. -/
@[simp] theorem ofCode_code (f : Fmt) : Fmt.ofCode f.code = f := by cases f <;> rfl

/-- The widths of the formats ascend with their codes, 32 bits at a time (30_encoding.md R41). -/
theorem width_tree (f : Fmt) : (Machine.tree f).width = 32 * (f.code.toNat + 1) := by cases f <;> rfl

/-- The codes that select no operation are 0xB to 0xF (30_encoding.md R42). -/
theorem instrOf_eq_none_iff (op : BitVec 4) (f : Fmt) (amt : Nat) : instrOf op f amt = none ↔ 0xB ≤ op.toNat := by
  unfold instrOf
  split
  case h_12 =>
    simp only [imp_false, true_iff] at *
    omega
  all_goals next hop => simp [hop]

/-- The operation a code selects has that code. -/
theorem opcode_of_instrOf {op : BitVec 4} {f : Fmt} {amt : Nat} {i : Instr} (h : instrOf op f amt = some i) :
    i.opcode = op := by
  apply BitVec.eq_of_toNat_eq
  unfold instrOf at h
  split at h
  case h_12 => cases h
  all_goals next hop => cases h; exact hop.symm

/-- A word spells a command when its `op` selects it and its `amt` is 0 unless it is a SHIFT (30_encoding.md R46). -/
theorem decode_eq_ok_iff (w : CmdWord) (i : Instr) :
    decode w = .ok i ↔
      instrOf (opField w) (Fmt.ofCode (fmtField w)) (amtField w).toNat = some i ∧ (opField w = 0x4#4 ∨ amtField w = 0#9) := by
  simp only [decode, ne_eq, ← not_or]
  cases instrOf (opField w) (Fmt.ofCode (fmtField w)) (amtField w).toNat with
  | none => simp
  | some j => by_cases hz : opField w = 0x4#4 ∨ amtField w = 0#9 <;> simp [hz]

/-- A word is refused when its `op` selects nothing or it is of the Z form with a nonzero `amt` (30_encoding.md R47). -/
theorem decode_eq_error_iff (w : CmdWord) :
    (∃ e, decode w = .error e) ↔ 0xB ≤ (opField w).toNat ∨ ((opField w).toNat ≠ 0x4 ∧ (amtField w).toNat ≠ 0) := by
  have hop : (opField w).toNat ≠ 0x4 ↔ opField w ≠ 0x4#4 := by simp [BitVec.toNat_eq]
  have hamt : (amtField w).toNat ≠ 0 ↔ amtField w ≠ 0#9 := by simp [BitVec.toNat_eq]
  rw [hop, hamt, ← instrOf_eq_none_iff (opField w) (Fmt.ofCode (fmtField w)) (amtField w).toNat]
  unfold decode
  cases instrOf (opField w) (Fmt.ofCode (fmtField w)) (amtField w).toNat with
  | none => simp
  | some j => by_cases hz : opField w ≠ 0x4#4 ∧ amtField w ≠ 0#9 <;> simp [hz]

/-- The command read from a table word is what the decoder reads from it on the port. -/
theorem decode_tableWord {nbits w : Nat} {i : Instr} (h : decodeTableWord nbits w = some i) :
    decode (tableWord nbits w) = .ok i := by
  unfold decodeTableWord at h
  cases hd : decode (tableWord nbits w) with
  | ok j => simpa [hd] using h
  | error e => simp [hd] at h

end Sys2Proof

namespace Sys2Proof.Machine

/-- A step runs the command it presents. -/
theorem step_eq_exec {s : State} {i : Instr} (h : decode s.present.cmd = .ok i) : step s = exec i s.present := by
  rw [step_of_ok h, exec_eq_driveY]

/-- Storing a word where the next step finds its command changes what that step presents in the command alone. -/
theorem present_withFetchWord (s : State) (nbits w : Nat) :
    (s.withFetchWord nbits w).present = { s.present with cmd := tableWord nbits w } := by
  unfold State.withFetchWord
  cases hp : s.pending with
  | nil => simp [State.present, hp]
  | cons t ts => rw [present_cons s t ts hp]; rfl

/-- SHIFT, WIDTH, FROMINT, TOINT, MINV and MAXV do not read `B` (30_encoding.md R44, R45). -/
theorem busResult_ignores_b {f : Fmt} {amt : Nat} {i : Instr}
    (hi : i ∈ [Instr.shift f amt, .width f, .fromint f, .toint f, .minv f, .maxv f]) (a b b' : Bus) :
    busResult i a b' = busResult i a b := by
  simp only [List.mem_cons, List.not_mem_nil, or_false] at hi
  obtain rfl | rfl | rfl | rfl | rfl | rfl := hi <;> rfl

/-- WIDTH, MINV and MAXV do not read `A` (30_encoding.md R45). -/
theorem busResult_ignores_a {f : Fmt} {i : Instr} (hi : i ∈ [Instr.width f, .minv f, .maxv f]) (a a' b : Bus) :
    busResult i a' b = busResult i a b := by
  simp only [List.mem_cons, List.not_mem_nil, or_false] at hi
  obtain rfl | rfl | rfl := hi <;> rfl

end Sys2Proof.Machine
end

section
/-! Proofs of the statements of 30_encoding.md. -/

namespace Sys2Proof.Machine

/-- Settles O5: `decode_eq_error_iff` names the two classes, a refused word raises the exception, and an accepted one is what its
`op` selects. -/
theorem illegalWordsExactly : Obligations.IllegalWordsExactly := by
  refine fun w => ⟨?_, fun s hw hillegal => ?_, fun i hi => ?_⟩
  · rw [decode_eq_error_iff]
    omega
  · obtain ⟨e, he⟩ := (decode_eq_error_iff w).mpr hillegal
    exact step_of_error (hw ▸ he)
  · exact opcode_of_instrOf ((decode_eq_ok_iff w i).mp hi).1

/-- Settles O6: codes and formats are inverse to each other, the widths ascend, and the table's eight trees are the model's. -/
theorem formatCodes : Obligations.FormatCodes :=
  ⟨code_ofCode, fun f => ⟨ofCode_code f, width_tree f⟩, rfl, rfl, rfl, rfl, rfl, rfl, rfl, rfl⟩

/-- Settles O38: a command only drives `Y`, with a value that does not depend on a port it ignores. -/
theorem ignoredPorts : Obligations.IgnoredPorts := by
  refine fun f amt s v => ⟨fun i hi => ⟨_, exec_eq_driveY i s, ?_⟩, fun i hi => ⟨_, exec_eq_driveY i s, ?_⟩⟩
  · rw [exec_eq_driveY, busResult_ignores_b hi s.a s.b v]
    rfl
  · rw [exec_eq_driveY, busResult_ignores_a hi s.a v s.b]
    rfl

/-- Settles O39: a step evaluates what the host presents, and the host presents the next transaction of its list. -/
theorem stepRunsDecodedCommand : Obligations.StepRunsDecodedCommand :=
  fun s => ⟨fun _ => step_eq_exec, present_nil s, present_cons s⟩

/-- Settles O40: the stored word is the command the next step presents. -/
theorem storedWordRuns : Obligations.StoredWordRuns := by
  intro s nbits w i h
  have hpresent := present_withFetchWord s nbits w
  rw [step_eq_exec (i := i) (by rw [hpresent]; exact decode_tableWord h), hpresent]

end Sys2Proof.Machine
end

section
/-! Facts about the fields of a word, a command's next state and what the conversions drive, for the statements of 40_conversion_width.md. -/

namespace Sys2Proof

/-- The `op` field of three fields side by side (30_encoding.md R40). -/
@[simp] theorem opField_append (amt : BitVec 9) (c : BitVec 3) (op : BitVec 4) : opField (amt ++ c ++ op) = op :=
  BitVec.extractLsb'_append_eq_right

/-- The `fmt` field of three fields side by side. -/
@[simp] theorem fmtField_append (amt : BitVec 9) (c : BitVec 3) (op : BitVec 4) : fmtField (amt ++ c ++ op) = c := by
  rw [fmtField, BitVec.extractLsb'_append_eq_of_le (by decide)]
  exact BitVec.extractLsb'_append_eq_right

/-- The `amt` field of three fields side by side. -/
@[simp] theorem amtField_append (amt : BitVec 9) (c : BitVec 3) (op : BitVec 4) : amtField (amt ++ c ++ op) = amt := by
  rw [amtField, BitVec.extractLsb'_append_eq_of_le (by decide)]
  exact BitVec.extractLsb'_append_eq_left

/-- A word of the Z form spells the command its `op` selects (30_encoding.md R43, R45). -/
theorem decode_zWord {op : BitVec 4} {f : Fmt} {i : Instr} (h : instrOf op f 0 = some i) : decode (zWord op f) = .ok i := by
  rw [decode_eq_ok_iff, zWord, opField_append, fmtField_append, amtField_append, ofCode_code]
  exact ⟨h, .inr rfl⟩

end Sys2Proof

namespace Sys2Proof.Machine

/-- The next state of a command, whole, from the value it drives. -/
theorem exec_of_busResult {i : Instr} {s : State} {v : Bus} (h : busResult i s.a s.b = v) :
    exec i s = .next { s with y := v, ill := false } := by
  rw [exec_eq_driveY, h]
  rfl

/-- Taking the value of a typed value gives it back (40_conversion_width.md R65). -/
@[simp] theorem fromF_valueF (F : Format) (v : F.Val) : fromF F (valueF F v) = v :=
  valueF_injective F _ _ (by rw [valueF_fromF_natCast, Nat.mod_eq_of_lt (valueF_lt F v)])

/-- A cast reduces the value modulo `2^W` of the target (40_conversion_width.md R66). -/
@[simp] theorem valueF_castF (G F : Format) (v : G.Val) : valueF F (castF G F v) = valueF G v % 2 ^ F.width :=
  valueF_fromF_natCast F (valueF G v)

/-- A packed typed value on the bus is its value as a 256-bit number (10_state.md R20, R25). -/
theorem setWidth_packF (f : Fmt) (r : (tree f).Val) :
    (packF (tree f) r).setWidth 256 = BitVec.ofNat 256 (valueF (tree f) r) := by
  rw [← BitVec.ofNat_toNat, toNat_packF]

/-- FROMINT reads a bus value as the value it was packed from: it loses no bit on the bus. -/
theorem readInteger_setWidth_packF (g : Fmt) (v : (tree g).Val) :
    readInteger ((packF (tree g) v).setWidth 256) = valueF (tree g) v := by
  rw [readInteger, setWidth_packF, BitVec.toNat_ofNat, Nat.mod_eq_of_lt (valueF_lt_bus g v)]

/-- FROMINT drives its port modulo `2^W` (40_conversion_width.md R62). -/
theorem busResult_fromint (f : Fmt) (a b : Bus) : busResult (.fromint f) a b = BitVec.ofNat 256 (a.toNat % 2 ^ widthOf f) := by
  rw [busResult, setWidth_packF, valueF_fromF_natCast, readInteger]

/-- TOINT drives its port modulo `2^W` (40_conversion_width.md R60). -/
theorem busResult_toint (f : Fmt) (a b : Bus) : busResult (.toint f) a b = BitVec.ofNat 256 (a.toNat % 2 ^ widthOf f) := by
  rw [busResult, valueF_readTyped]

/-- The used bits of a port on the bus are the port modulo `2^W`. -/
theorem setWidth_portLow (f : Fmt) (port : Bus) :
    (portLow f port).setWidth 256 = BitVec.ofNat 256 (port.toNat % 2 ^ widthOf f) := by
  rw [← BitVec.ofNat_toNat, toNat_portLow]

end Sys2Proof.Machine
end

section
/-! Proofs of the statements of 40_conversion_width.md. -/

namespace Sys2Proof.Machine

/-- Settles O9: the value of a taken integer is its floored remainder, which an integer in range equals. -/
theorem conversionLaws : Obligations.ConversionLaws := by
  refine fun F => ⟨valueF_fromF F, fun n hnonneg hlt => ?_, fromF_valueF F⟩
  rw [valueF_fromF, Int.fmod_eq_of_lt hnonneg hlt]

/-- Settles O10: a cast reduces the value modulo `2^W` of the target, and a wider target holds every value of the source. -/
theorem castKeepsLowBits : Obligations.CastKeepsLowBits := by
  refine fun G F v => ⟨valueF_castF G F v, fun hwiden => ?_⟩
  have hfits : valueF G v < 2 ^ F.width := (valueF_lt G v).trans_le (Nat.pow_le_pow_right (by decide) hwiden)
  rw [valueF_castF, Nat.mod_eq_of_lt hfits]

/-- Settles O29: the value of the typed operand is the port modulo `2^W`, which are the used bits. -/
theorem toIntDrivesValue : Obligations.ToIntDrivesValue := by
  refine fun f s => ⟨decode_zWord rfl, exec_of_busResult ?_, ?_⟩
  · rw [busResult_toint, setWidth_portLow]
  · rw [valueF_unpackF, BitVec.toNat_setWidth_of_le (widthOf_le f)]

/-- Settles O30: the packed result has the value of the taken integer, which is `A` modulo `2^W`. -/
theorem fromIntNarrows : Obligations.FromIntNarrows :=
  fun f s => ⟨decode_zWord rfl, exec_of_busResult (busResult_fromint f s.a s.b),
    by rw [toNat_packF, valueF_fromF_natCast]⟩

/-- Settles O35: both commands drive `A` modulo `2^W`, and FROMINT reads a bus value of `G` as the integer that the cast takes. -/
theorem toIntIsFromIntOnTheBus : Obligations.ToIntIsFromIntOnTheBus := by
  refine ⟨fun f s => ?_, fun g f v s ha => exec_of_busResult ?_⟩
  · rw [exec_eq_driveY, exec_eq_driveY, busResult_toint, busResult_fromint]
  · rw [busResult, ha, readInteger_setWidth_packF, castF]

/-- Settles O31: WIDTH drives the width of the format's tree, and the widths ascend with the codes. -/
theorem widthDrivesWidth : Obligations.WidthDrivesWidth :=
  fun f _ => ⟨decode_zWord rfl, exec_of_busResult (congrArg (BitVec.ofNat 256) (width_tree f)), width_tree f⟩

end Sys2Proof.Machine
end

section
/-! Facts about the order, the bounds, the exclusive or and the adder by value and by bits, for the statements of 41_add.md. -/

namespace Sys2Proof.Machine

/-- Numbers of two digits with the same range of low digits are ordered by the high digit, then by the low one. -/
theorem add_mul_lt_add_mul_iff {m l l' h h' : Nat} (hl : l < m) (hl' : l' < m) :
    l + h * m < l' + h' * m ↔ h < h' ∨ h = h' ∧ l < l' := by
  have gap {x y : Nat} (hxy : x < y) : x * m + m ≤ y * m := by
    rw [← Nat.succ_mul]
    exact Nat.mul_le_mul_right m hxy
  rcases lt_trichotomy h h' with hlt | rfl | hgt
  · have := gap hlt
    omega
  · omega
  · have := gap hgt
    omega

/-- Adding numbers of two digits to the bases `m` and `n`: the quotient of the low digits' sum is carried into the high digit. -/
theorem add_digits_with_carry {m : Nat} (hm : 0 < m) (n l l' h h' : Nat) :
    (l + l') % m + ((h + h') % n + (l + l') / m % n) % n * m = (l + h * m + (l' + h' * m)) % (m * n) := by
  have hsum : l + h * m + (l' + h' * m) = l + l' + (h + h') * m := by ring
  rw [hsum, Nat.mod_mul, Nat.add_mul_mod_self_right, Nat.add_mul_div_right _ _ hm, ← Nat.add_mod, Nat.mul_comm m,
    Nat.add_comm (h + h')]

/-- Structural equality is equality (44_compare_bounds.md R100, R102). -/
@[simp] theorem eqF_iff : ∀ (F : Format) (a b : F.Val), eqF F a b = true ↔ a = b
  | .L32, a, b => by simp [eqF, BitVec.toNat_inj]
  | .L64, a, b => by simp [eqF, BitVec.toNat_inj]
  | .C lo hi, a, b => by simp only [eqF, Bool.and_eq_true, eqF_iff hi, eqF_iff lo, Prod.ext_iff, and_comm]

/-- Equal typed values are those of equal value. -/
theorem valueF_inj {F : Format} {a b : F.Val} : valueF F a = valueF F b ↔ a = b :=
  ⟨valueF_injective F a b, congrArg _⟩

/-- Structural ordering is numeric ordering (44_compare_bounds.md R102). -/
@[simp] theorem ltF_iff : ∀ (F : Format) (a b : F.Val), ltF F a b = true ↔ valueF F a < valueF F b
  | .L32, _, _ => BitVec.ult_iff_lt
  | .L64, _, _ => BitVec.ult_iff_lt
  | .C lo hi, a, b => by
    rw [valueF, valueF, add_mul_lt_add_mul_iff (valueF_lt lo a.1) (valueF_lt lo b.1)]
    simp only [ltF, Bool.or_eq_true, Bool.and_eq_true, ltF_iff hi, ltF_iff lo, eqF_iff, valueF_inj]

/-- The minimum has the value 0 (44_compare_bounds.md R105). -/
@[simp] theorem valueF_minF : ∀ F : Format, valueF F (minF F) = 0
  | .L32 => rfl
  | .L64 => rfl
  | .C lo hi => by simp only [minF, valueF, valueF_minF lo, valueF_minF hi, Nat.zero_mul]

/-- The maximum has the value `2^W - 1` (44_compare_bounds.md R105). -/
@[simp] theorem valueF_maxF : ∀ F : Format, valueF F (maxF F) = 2 ^ F.width - 1
  | .L32 => rfl
  | .L64 => rfl
  | .C lo hi => by
    have hlo : 0 < 2 ^ lo.width := Nat.two_pow_pos _
    have hhi : 2 ^ lo.width ≤ 2 ^ hi.width * 2 ^ lo.width := Nat.le_mul_of_pos_left _ (Nat.two_pow_pos _)
    rw [Format.width, Nat.add_comm, Nat.pow_add]
    simp only [maxF, valueF, valueF_maxF lo, valueF_maxF hi, Nat.sub_mul, Nat.one_mul]
    omega

/-- The maximum is all ones (44_compare_bounds.md R104). -/
@[simp] theorem packF_maxF (F : Format) : packF F (maxF F) = BitVec.allOnes F.width :=
  BitVec.eq_of_toNat_eq (by rw [toNat_packF, valueF_maxF, BitVec.toNat_allOnes])

/-- Limbwise exclusive or is exclusive or of the packed bits (42_bitwise.md R85). -/
@[simp] theorem packF_xorF : ∀ (F : Format) (a b : F.Val), packF F (xorF F a b) = packF F a ^^^ packF F b
  | .L32, _, _ => rfl
  | .L64, _, _ => rfl
  | .C lo hi, a, b => by
    simp only [packF, xorF, packF_xorF lo, packF_xorF hi, BitVec.xor_cast, BitVec.xor_append]

/-- Exclusive or with the maximum is the complement (41_add.md R75). -/
theorem valueF_xorF_maxF (F : Format) (b : F.Val) : valueF F (xorF F b (maxF F)) = 2 ^ F.width - 1 - valueF F b := by
  rw [← toNat_packF, packF_xorF, packF_maxF, BitVec.xor_allOnes, BitVec.toNat_not, toNat_packF]

/-- Packing undoes unpacking (10_state.md R21). -/
@[simp] theorem packF_unpackF (F : Format) (b : BitVec F.width) : packF F (unpackF F b) = b :=
  BitVec.eq_of_toNat_eq (by rw [toNat_packF, valueF_unpackF])

/-- A sum reduced modulo `2^W` is below an addend exactly when it wrapped (41_add.md R73 (b)). -/
theorem ltF_of_wrapped_sum {F : Format} {sum a b : F.Val}
    (hsum : valueF F sum = (valueF F a + valueF F b) % 2 ^ F.width) :
    ltF F sum a = decide (2 ^ F.width ≤ valueF F a + valueF F b) := by
  have ha := valueF_lt F a
  have hb := valueF_lt F b
  rw [Bool.eq_iff_iff, ltF_iff, decide_eq_true_iff, hsum]
  by_cases hwrap : 2 ^ F.width ≤ valueF F a + valueF F b
  · rw [Nat.mod_eq_sub_mod hwrap, Nat.mod_eq_of_lt (by omega)]
    omega
  · rw [Nat.mod_eq_of_lt (by omega)]
    omega

/-- The carry of a sum reduced modulo `2^W` is the quotient that the reduction drops (41_add.md R73 (b), (e)). -/
theorem carryF_of_wrapped_sum {F : Format} {sum a b : F.Val}
    (hsum : valueF F sum = (valueF F a + valueF F b) % 2 ^ F.width) :
    carryF F sum a = (valueF F a + valueF F b) / 2 ^ F.width := by
  have ha := valueF_lt F a
  have hb := valueF_lt F b
  simp only [carryF, ltF_of_wrapped_sum hsum, decide_eq_true_iff]
  split
  · exact (Nat.div_eq_of_lt_le (by omega) (by omega)).symm
  · exact (Nat.div_eq_of_lt (by omega)).symm

/-- The value of a typed sum (41_add.md R74), by induction on the format: the low limb's sum splits into the low limb of the
result and the carry. -/
@[simp] theorem valueF_addF : ∀ (F : Format) (a b : F.Val), valueF F (addF F a b) = (valueF F a + valueF F b) % 2 ^ F.width
  | .L32, a, b => BitVec.toNat_add (w := 32) a b
  | .L64, a, b => BitVec.toNat_add (w := 64) a b
  | .C lo hi, a, b => by
    have hcarry := carryF_of_wrapped_sum (valueF_addF lo a.1 b.1)
    simp only [addF, valueF, Format.width, Nat.pow_add, valueF_addF lo, valueF_addF hi, hcarry, valueF_fromF_natCast]
    exact add_digits_with_carry (Nat.two_pow_pos _) ..

/-- A sum is below its first addend exactly when the exact sum does not fit (41_add.md R73 (b)). -/
theorem ltF_addF (F : Format) (a b : F.Val) :
    ltF F (addF F a b) a = decide (2 ^ F.width ≤ valueF F a + valueF F b) := ltF_of_wrapped_sum (valueF_addF F a b)

/-- The carry of a sum is its quotient by `2^W` (41_add.md R73). -/
theorem carryF_addF (F : Format) (a b : F.Val) :
    carryF F (addF F a b) a = (valueF F a + valueF F b) / 2 ^ F.width := carryF_of_wrapped_sum (valueF_addF F a b)

/-- The order of the addends does not matter (41_add.md R75). -/
theorem addF_comm (F : Format) (a b : F.Val) : addF F a b = addF F b a :=
  valueF_injective F _ _ (by rw [valueF_addF, valueF_addF, Nat.add_comm])

/-- The grouping of the addends does not matter (41_add.md R72, R75). -/
theorem addF_assoc (F : Format) (a b c : F.Val) : addF F (addF F a b) c = addF F a (addF F b c) :=
  valueF_injective F _ _ (by simp only [valueF_addF, Nat.mod_add_mod, Nat.add_mod_mod, Nat.add_assoc])

/-- The minimum adds nothing (41_add.md R75). -/
@[simp] theorem addF_minF (F : Format) (a : F.Val) : addF F a (minF F) = a :=
  valueF_injective F _ _ (by rw [valueF_addF, valueF_minF, Nat.add_zero, Nat.mod_eq_of_lt (valueF_lt F a)])

/-- The complement plus 1 is the negative modulo `2^W` (41_add.md R75). -/
theorem valueF_complement_add_one (F : Format) (b : F.Val) :
    valueF F (addF F (xorF F b (maxF F)) (fromF F 1)) = (2 ^ F.width - valueF F b) % 2 ^ F.width := by
  have hb := valueF_lt F b
  have hone : valueF F (fromF F 1) = 1 % 2 ^ F.width := valueF_fromF_natCast F 1
  have hnegate : 2 ^ F.width - 1 - valueF F b + 1 = 2 ^ F.width - valueF F b := by omega
  rw [valueF_addF, valueF_xorF_maxF, hone, Nat.add_mod_mod, hnegate]

/-- The typed sum is the sum of the packed bits (41_add.md R70, R74). -/
@[simp] theorem packF_addF (F : Format) (a b : F.Val) : packF F (addF F a b) = packF F a + packF F b :=
  BitVec.eq_of_toNat_eq (by rw [BitVec.toNat_add, toNat_packF, toNat_packF, toNat_packF, valueF_addF])

/-- ADD drives the sum of the used bits of its operands (41_add.md R70). -/
theorem busResult_add (f : Fmt) (a b : Bus) : busResult (.add f) a b = (portLow f a + portLow f b).setWidth 256 := by
  rw [busResult, packF_addF, readTyped, readTyped, packF_unpackF, packF_unpackF]

end Sys2Proof.Machine
end

section
/-! Proofs of the statements of 41_add.md. -/

namespace Sys2Proof.Machine

/-- Settles O11, by induction on the format in `valueF_addF`. -/
theorem addFlatLaw : Obligations.AddFlatLaw := valueF_addF

/-- Settles O12: the carry is the quotient of the exact sum by `2^wl`, the low sum its remainder, and two limbs' sum is below
`2 * 2^wl`. -/
theorem carryLaws : Obligations.CarryLaws := by
  intro lo a b
  have ha := valueF_lt lo a
  have hb := valueF_lt lo b
  have hpos : 0 < 2 ^ lo.width := Nat.two_pow_pos _
  have hbit : (valueF lo a + valueF lo b) / 2 ^ lo.width ≤ 1 :=
    Nat.le_of_lt_succ (Nat.div_lt_of_lt_mul (by omega))
  rw [carryF_addF, valueF_addF]
  refine ⟨Nat.le_one_iff_eq_zero_or_eq_one.mp hbit, ?_, ?_, fun hzero => ?_, ?_⟩
  · rw [← Nat.one_le_div_iff hpos]
    exact ⟨ge_of_eq, Nat.le_antisymm hbit⟩
  · rw [ltF_addF, addF_comm, ltF_addF, Nat.add_comm]
  · rw [hzero, Nat.add_zero, Nat.div_eq_of_lt ha]
  · rw [Nat.mul_comm, Nat.mod_add_div]

/-- Settles O13: both sides of each equation have the same value. -/
theorem additionAlgebra : Obligations.AdditionAlgebra :=
  fun F a b c => ⟨addF_comm F a b, addF_assoc F a b c, addF_minF F a⟩

/-- Settles O14: the complement of `b` plus 1 is the negative of `b`. -/
theorem composedSubtraction : Obligations.ComposedSubtraction := by
  intro F a b
  rw [valueF_addF, valueF_complement_add_one, Nat.add_mod_mod]

/-- Settles O24: the packed typed sum is the sum of the packed operands, which are the used bits. -/
theorem addDrivesSum : Obligations.AddDrivesSum :=
  fun f s => ⟨decode_zWord rfl, exec_of_busResult (busResult_add f s.a s.b),
    by rw [packF_addF, packF_unpackF, packF_unpackF]⟩

end Sys2Proof.Machine
end

section
/-! Facts about the limbwise operations by bits and by value, for the statements of 42_bitwise.md. -/

namespace Sys2Proof.Machine

/-- Limbwise and is and of the packed bits (42_bitwise.md R85). -/
@[simp] theorem packF_andF : ∀ (F : Format) (a b : F.Val), packF F (andF F a b) = packF F a &&& packF F b
  | .L32, _, _ => rfl
  | .L64, _, _ => rfl
  | .C lo hi, a, b => by
    simp only [packF, andF, packF_andF lo, packF_andF hi, BitVec.and_cast, BitVec.and_append]

/-- Limbwise or is or of the packed bits (42_bitwise.md R85). -/
@[simp] theorem packF_orF : ∀ (F : Format) (a b : F.Val), packF F (orF F a b) = packF F a ||| packF F b
  | .L32, _, _ => rfl
  | .L64, _, _ => rfl
  | .C lo hi, a, b => by
    simp only [packF, orF, packF_orF lo, packF_orF hi, BitVec.or_cast, BitVec.or_append]

/-- The value of a limbwise and (42_bitwise.md R85). -/
@[simp] theorem valueF_andF (F : Format) (a b : F.Val) : valueF F (andF F a b) = valueF F a &&& valueF F b := by
  rw [← toNat_packF, packF_andF, BitVec.toNat_and, toNat_packF, toNat_packF]

/-- The value of a limbwise or (42_bitwise.md R85). -/
@[simp] theorem valueF_orF (F : Format) (a b : F.Val) : valueF F (orF F a b) = valueF F a ||| valueF F b := by
  rw [← toNat_packF, packF_orF, BitVec.toNat_or, toNat_packF, toNat_packF]

/-- The value of a limbwise exclusive or (42_bitwise.md R85). -/
@[simp] theorem valueF_xorF (F : Format) (a b : F.Val) : valueF F (xorF F a b) = valueF F a ^^^ valueF F b := by
  rw [← toNat_packF, packF_xorF, BitVec.toNat_xor, toNat_packF, toNat_packF]

/-- A command that drives a typed operation on its two operands drives the flat operation on the used bits, when packing takes
the typed operation `op` to the flat operation `flat` (42_bitwise.md R80 to R82). -/
theorem exec_of_packF_op {i : Instr} {f : Fmt} {op : (tree f).Val → (tree f).Val → (tree f).Val} (s : State)
    (flat : BitVec (widthOf f) → BitVec (widthOf f) → BitVec (widthOf f))
    (hdrives : busResult i s.a s.b = (packF (tree f) (op (readTyped f s.a) (readTyped f s.b))).setWidth 256)
    (hflat : ∀ a b, packF (tree f) (op a b) = flat (packF (tree f) a) (packF (tree f) b)) :
    exec i s = .next { s with y := (flat (portLow f s.a) (portLow f s.b)).setWidth 256, ill := false } ∧
    packF (tree f) (op (unpackF (tree f) (portLow f s.a)) (unpackF (tree f) (portLow f s.b))) =
      flat (portLow f s.a) (portLow f s.b) := by
  have hpacked : packF (tree f) (op (readTyped f s.a) (readTyped f s.b)) = flat (portLow f s.a) (portLow f s.b) := by
    rw [hflat, readTyped, readTyped, packF_unpackF, packF_unpackF]
  exact ⟨exec_of_busResult (by rw [hdrives, hpacked]), hpacked⟩

end Sys2Proof.Machine
end

section
/-! Proofs of the statements of 42_bitwise.md. -/

namespace Sys2Proof.Machine

/-- Settles O15: packing takes each limbwise operation to the flat one, by induction on the format, and keeps the value. -/
theorem bitwiseFlatLaw : Obligations.BitwiseFlatLaw :=
  fun F a b => ⟨valueF_andF F a b, valueF_orF F a b, valueF_xorF F a b⟩

/-- Settles O25: packing takes the limbwise and to the and of the used bits. -/
theorem andDrivesAnd : Obligations.AndDrivesAnd :=
  fun f s => ⟨decode_zWord rfl, exec_of_packF_op s (· &&& ·) rfl (packF_andF (tree f))⟩

/-- Settles O26: packing takes the limbwise or to the or of the used bits. -/
theorem orDrivesOr : Obligations.OrDrivesOr :=
  fun f s => ⟨decode_zWord rfl, exec_of_packF_op s (· ||| ·) rfl (packF_orF (tree f))⟩

/-- Settles O27: packing takes the limbwise exclusive or to the exclusive or of the used bits. -/
theorem xorDrivesXor : Obligations.XorDrivesXor :=
  fun f s => ⟨decode_zWord rfl, exec_of_packF_op s (· ^^^ ·) rfl (packF_xorF (tree f))⟩

end Sys2Proof.Machine
end

section
/-! Facts about the crossing bits, the typed shift and the word of the S form, for the statements of 43_shift.md. -/

namespace Sys2Proof

/-- A word of the S form spells SHIFT with its format and its amount (30_encoding.md R44). -/
theorem decode_sWord (f : Fmt) (amt : BitVec 9) : decode (sWord f amt) = .ok (.shift f amt.toNat) := by
  rw [decode_eq_ok_iff, sWord, opField_append, fmtField_append, amtField_append, ofCode_code]
  exact ⟨rfl, .inl rfl⟩

end Sys2Proof

namespace Sys2Proof.Machine

/-- Shifting a number of two digits to the bases `m` and `n`: what the low digit sends over its top is added to the shifted high
digit. -/
theorem shiftLeft_digits {m : Nat} (hm : 0 < m) (n l h x : Nat) :
    l <<< x % m + (h <<< x + l <<< x / m) % n * m = (l + h * m) <<< x % (m * n) := by
  have hsum : (l + h * m) <<< x = l <<< x + h <<< x * m := by
    simp only [Nat.shiftLeft_eq]
    ring
  rw [hsum, Nat.mod_mul, Nat.add_mul_mod_self_right, Nat.add_mul_div_right _ _ hm, Nat.add_comm (h <<< x), Nat.mul_comm m]

/-- A shifted number has no bit below `x`, so merging one below `2^x` into it adds, also modulo `2^w` (43_shift.md R92). -/
theorem shiftLeft_mod_or_mod {c x : Nat} (hc : c < 2 ^ x) (n w : Nat) :
    n <<< x % 2 ^ w ||| c % 2 ^ w = (n <<< x + c) % 2 ^ w := by
  rw [Nat.shiftLeft_add_eq_or_of_lt hc, Nat.or_mod_two_pow]

/-- The crossing bits when part of the low limb stays in it (43_shift.md R92). -/
theorem crossing_of_le {wl x : Nat} (wh v : Nat) (hx : x ≤ wl) : crossing wl wh v x = v / 2 ^ (wl - x) % 2 ^ wh := by
  have hsplit : 2 ^ wl = 2 ^ (wl - x) * 2 ^ x := (pow_sub_mul_pow 2 hx).symm
  rw [crossing, Nat.shiftLeft_eq, hsplit, Nat.mul_div_mul_right _ _ (Nat.two_pow_pos x)]

/-- The crossing bits when the whole low limb moves into the high limb (43_shift.md R92). -/
theorem crossing_of_ge {wl x : Nat} (wh v : Nat) (hx : wl ≤ x) : crossing wl wh v x = v <<< (x - wl) % 2 ^ wh := by
  have hsplit : 2 ^ x = 2 ^ (x - wl) * 2 ^ wl := (pow_sub_mul_pow 2 hx).symm
  rw [crossing, Nat.shiftLeft_eq, Nat.shiftLeft_eq, hsplit, ← Nat.mul_assoc, Nat.mul_div_cancel _ (Nat.two_pow_pos wl)]

/-- No more bits of a limb cross than it moves up (43_shift.md R92). -/
theorem crossing_lt {wl v : Nat} (hv : v < 2 ^ wl) (wh x : Nat) : crossing wl wh v x < 2 ^ x := by
  have hshifted : v <<< x < 2 ^ wl * 2 ^ x := by
    rw [Nat.shiftLeft_eq]
    exact Nat.mul_lt_mul_of_pos_right hv (Nat.two_pow_pos x)
  exact (Nat.mod_le _ _).trans_lt (Nat.div_lt_of_lt_mul hshifted)

/-- Cutting the crossing bits to a narrower high limb. -/
theorem crossing_mod {wh wh' : Nat} (h : wh ≤ wh') (wl v x : Nat) : crossing wl wh' v x % 2 ^ wh = crossing wl wh v x :=
  Nat.mod_mod_of_dvd _ (pow_dvd_pow 2 h)

/-- The value of a shifted high limb `s` with the crossing bits merged in (43_shift.md R92): the OR adds them. -/
theorem valueF_orF_crossing {lo hi : Format} {s h : hi.Val} {x : Nat}
    (hs : valueF hi s = valueF hi h <<< x % 2 ^ hi.width) (l : lo.Val) :
    valueF hi (orF hi s (fromF hi (crossing lo.width hi.width (valueF lo l) x))) =
      (valueF hi h <<< x + valueF lo l <<< x / 2 ^ lo.width) % 2 ^ hi.width := by
  rw [valueF_orF, hs, valueF_fromF_natCast, shiftLeft_mod_or_mod (crossing_lt (valueF_lt lo l) ..), crossing,
    Nat.add_mod_mod]

/-- The value of a shifted typed value (43_shift.md R94), by induction on the format: the crossing bits are the quotient of the
shifted low limb. -/
@[simp] theorem valueF_shiftF : ∀ (F : Format) (v : F.Val) (x : Nat), valueF F (shiftF F v x) = valueF F v <<< x % 2 ^ F.width
  | .L32, v, x => BitVec.toNat_shiftLeft (v := 32) (x := v)
  | .L64, v, x => BitVec.toNat_shiftLeft (v := 64) (x := v)
  | .C lo hi, v, x => by
    by_cases hx : x = 0
    · rw [shiftF, if_pos hx, hx, Nat.shiftLeft_zero, Nat.mod_eq_of_lt (valueF_lt _ v)]
    · simp only [shiftF, if_neg hx, valueF, Format.width, Nat.pow_add, valueF_shiftF lo,
        valueF_orF_crossing (valueF_shiftF hi v.2 x)]
      exact shiftLeft_digits (Nat.two_pow_pos _) ..

/-- The typed shift is the shift of the packed bits (43_shift.md R90, R94). -/
@[simp] theorem packF_shiftF (F : Format) (v : F.Val) (x : Nat) : packF F (shiftF F v x) = packF F v <<< x :=
  BitVec.eq_of_toNat_eq (by rw [BitVec.toNat_shiftLeft, toNat_packF, toNat_packF, valueF_shiftF])

/-- The inner shift by `x - w`, of either sign, leaves the bits that cross at `w` (43_shift.md R93). -/
theorem valueF_innerShift (F : Format) (v : F.Val) (w x : Nat) :
    valueF F (innerShift F v (x - w)) = crossing w F.width (valueF F v) x := by
  rcases le_or_gt w x with hge | hlt
  · have hamount : ((x : Int) - w).toNat = x - w := by omega
    rw [innerShift, if_pos (by omega), hamount, valueF_shiftF, crossing_of_ge _ _ hge]
  · have hamount : (-((x : Int) - w)).toNat = w - x := by omega
    rw [innerShift, if_neg (by omega), hamount, valueF_fromF_natCast, crossing_of_le _ _ hlt.le]

/-- SHIFT drives the flat shift of the used bits of `A` (43_shift.md R90). -/
theorem busResult_shift (f : Fmt) (amt : Nat) (a b : Bus) :
    busResult (.shift f amt) a b = (portLow f a <<< amt).setWidth 256 := by
  rw [busResult, packF_shiftF, readTyped, packF_unpackF]

/-- The bits of a port that a format uses, one by one. -/
@[simp] theorem getLsbD_portLow (f : Fmt) (port : Bus) (i : Nat) :
    (portLow f port).getLsbD i = (decide (i < widthOf f) && port.getLsbD i) := by
  rw [portLow, BitVec.getLsbD_extractLsb', Nat.zero_add]

end Sys2Proof.Machine
end

section
/-! Proofs of the statements of 43_shift.md. -/

namespace Sys2Proof.Machine

/-- Settles O16: the value by induction on the format in `valueF_shiftF`, the bits by the shift of the packed bits. -/
theorem shiftFlatLaw : Obligations.ShiftFlatLaw := by
  refine fun F a x => ⟨valueF_shiftF F a x, fun i hi => ?_⟩
  rw [packF_shiftF, BitVec.getLsbD_shiftLeft]
  simp only [hi, ← Nat.not_lt, decide_true, decide_not, Bool.true_and]

/-- Settles O18: the readings and the bound are those of `crossing`; both ways of merging have the same value. -/
theorem crossingBits : Obligations.CrossingBits := by
  refine ⟨fun wl wh v x hv => ⟨fun _ hlt => crossing_of_le wh v hlt.le, crossing_of_ge wh v, crossing_lt hv wh x⟩,
    fun lo hi l h x => valueF_injective hi _ _ ?_⟩
  rw [valueF_orF_crossing (valueF_shiftF hi h x), valueF_addF, valueF_shiftF, valueF_fromF_natCast, ← Nat.add_mod, crossing,
    Nat.add_mod_mod]

/-- Settles O19: in either branch what is carried has the value of the crossing bits. A wider high limb holds the low limb
whole; one that is not wider cuts the bits once they are taken from the low limb. -/
theorem sourceMechanismAgrees : Obligations.SourceMechanismAgrees := by
  intro lo hi v x hx
  have hlow := valueF_lt lo v.1
  rw [sourceShift, shiftF, if_neg hx.ne']
  congr 2
  apply valueF_injective
  rw [valueF_fromF_natCast, crossing_mod le_rfl]
  split
  · next hwide =>
    rw [valueF_innerShift, valueF_castF, Nat.mod_eq_of_lt (hlow.trans (Nat.pow_lt_pow_right (by decide) hwide))]
  · next hnarrow => rw [valueF_castF, valueF_innerShift, crossing_mod (not_lt.mp hnarrow)]

/-- Settles O28: the packed typed shift is the shift of the used bits, which are none above `W`. -/
theorem shiftDrivesShift : Obligations.ShiftDrivesShift := by
  refine fun f amt s => ⟨fun hamt => ?_, exec_of_busResult (busResult_shift f amt s.a s.b), ?_, fun i => ?_⟩
  · rw [decode_sWord, BitVec.toNat_ofNat, Nat.mod_eq_of_lt hamt]
  · rw [packF_shiftF, packF_unpackF]
  · have hbus := widthOf_le f
    rw [BitVec.getLsbD_setWidth, BitVec.getLsbD_shiftLeft, getLsbD_portLow]
    by_cases hvacated : i < amt
    · simp [hvacated, Nat.not_le.mpr hvacated]
    · by_cases hused : i < widthOf f
      · have hbelow : i < 256 ∧ i - amt < widthOf f := by omega
        simp [hvacated, Nat.not_lt.mp hvacated, hused, hbelow]
      · simp [hused]

/-- Settles O17: a shift by 0 keeps the value. -/
theorem shiftByZero : Obligations.ShiftByZero := by
  refine fun F a => valueF_injective F _ _ ?_
  rw [valueF_shiftF, Nat.shiftLeft_zero, Nat.mod_eq_of_lt (valueF_lt F a)]

end Sys2Proof.Machine
end

section
/-! Facts about the order and the bounds by bits, and about what CMP, MINV and MAXV drive, for the statements of 44_compare_bounds.md. -/

namespace Sys2Proof.Machine

/-- Structural ordering is the unsigned comparison of the packed bits (44_compare_bounds.md R102). -/
theorem ltF_eq_ult_packF (F : Format) (a b : F.Val) : ltF F a b = (packF F a).ult (packF F b) := by
  rw [Bool.eq_iff_iff, ltF_iff, BitVec.ult_iff_lt, BitVec.lt_def, toNat_packF, toNat_packF]

/-- Different bits unpack to different typed values (10_state.md R21). -/
theorem unpackF_inj {F : Format} {a b : BitVec F.width} : unpackF F a = unpackF F b ↔ a = b := by
  rw [← valueF_inj, valueF_unpackF, valueF_unpackF, BitVec.toNat_inj]

/-- Structural equality of unpacked operands is equality of their bits (44_compare_bounds.md R101). -/
theorem eqF_unpackF (F : Format) (a b : BitVec F.width) : eqF F (unpackF F a) (unpackF F b) = decide (a = b) := by
  rw [Bool.eq_iff_iff, eqF_iff, unpackF_inj, decide_eq_true_iff]

/-- Structural ordering of unpacked operands is the unsigned order of their bits (44_compare_bounds.md R101). -/
theorem ltF_unpackF (F : Format) (a b : BitVec F.width) : ltF F (unpackF F a) (unpackF F b) = decide (a < b) := by
  rw [Bool.eq_iff_iff, ltF_iff, valueF_unpackF, valueF_unpackF, decide_eq_true_iff, BitVec.lt_def]

/-- Bit 0 of CMP's result on the bus is EQ (44_compare_bounds.md R101). -/
theorem getLsbD_zero_cmpBits (lt eq : Bool) : ((cmpBits lt eq).setWidth 256).getLsbD 0 = eq := by
  cases lt <;> cases eq <;> rfl

/-- Bit 1 of CMP's result on the bus is LT (44_compare_bounds.md R101). -/
theorem getLsbD_one_cmpBits (lt eq : Bool) : ((cmpBits lt eq).setWidth 256).getLsbD 1 = lt := by
  cases lt <;> cases eq <;> rfl

/-- CMP drives 1 for equal, 2 for less and 0 for greater (44_compare_bounds.md R101): equal operands are not less. -/
theorem busResult_cmp (f : Fmt) (a b : Bus) :
    busResult (.cmp f) a b = if portLow f a = portLow f b then 1 else if portLow f a < portLow f b then 2 else 0 := by
  rw [busResult, readTyped, readTyped, ltF_unpackF, eqF_unpackF]
  split
  · next heq => rw [heq, decide_eq_false (BitVec.lt_irrefl _), decide_eq_true rfl]; rfl
  · next hne =>
    rw [decide_eq_false hne]
    split
    · next hlt => rw [decide_eq_true hlt]; rfl
    · next hge => rw [decide_eq_false hge]; rfl

/-- CMP never drives 3 (44_compare_bounds.md R101). -/
theorem busResult_cmp_ne_three (f : Fmt) (a b : Bus) : busResult (.cmp f) a b ≠ 3 := by
  rw [busResult_cmp]
  split
  · decide
  · split <;> decide

/-- MINV drives 0 (44_compare_bounds.md R103). -/
theorem setWidth_packF_minF (f : Fmt) : (packF (tree f) (minF (tree f))).setWidth 256 = (0 : Bus) := by
  rw [setWidth_packF, valueF_minF]
  rfl

end Sys2Proof.Machine
end

section
/-! Proofs of the statements of 44_compare_bounds.md. -/

namespace Sys2Proof.Machine

/-- Settles O20: structural ordering and equality are by value, and the value is the number the packed bits spell. -/
theorem orderIsNumeric : Obligations.OrderIsNumeric :=
  fun F a b => ⟨ltF_iff F a b, (eqF_iff F a b).trans valueF_inj.symm, ltF_eq_ult_packF F a b, eqF_iff F a b⟩

/-- Settles O21: the order of the values is total. -/
theorem orderIsTotal : Obligations.OrderIsTotal := by
  intro F a b
  simp only [ltF_iff, eqF_iff, ← valueF_inj]
  omega

/-- Settles O22: the number of values of a composite is the product of its limbs' numbers of values. -/
theorem boundsValues : Obligations.BoundsValues := by
  refine ⟨fun F => ⟨valueF_minF F, valueF_maxF F⟩, fun lo hi => ?_⟩
  have count (F : Format) : valueF F (maxF F) + 1 = 2 ^ F.width := by
    rw [valueF_maxF, Nat.sub_add_cancel Nat.one_le_two_pow]
  rw [count, count, valueF_maxF, ← Nat.pow_add, Format.width_swap]

/-- Settles O32: the two bits are the structural comparisons of the unpacked operands, which are those of the used bits. -/
theorem cmpDrivesOrder : Obligations.CmpDrivesOrder := by
  refine fun f s => ⟨decode_zWord rfl, exec_of_busResult (busResult_cmp f s.a s.b), fun t ht => ?_⟩
  obtain rfl : driveY (busResult (.cmp f) s.a s.b) s = t := by simpa [exec_eq_driveY] using ht
  exact ⟨getLsbD_zero_cmpBits .., getLsbD_one_cmpBits .., busResult_cmp_ne_three f s.a s.b⟩

/-- Settles O34: the maximum has the value `2^W - 1` and all bits ones. -/
theorem maxvDrivesOnes : Obligations.MaxvDrivesOnes := by
  refine fun f s => ⟨decode_zWord rfl, exec_of_busResult ?_, packF_maxF (tree f)⟩
  rw [busResult, setWidth_packF, valueF_maxF]

/-- Settles O33: the minimum has the value 0 at every format. -/
theorem minvDrivesZero : Obligations.MinvDrivesZero :=
  fun f _ => ⟨decode_zWord rfl, exec_of_busResult (setWidth_packF_minF f), setWidth_packF_minF f⟩

end Sys2Proof.Machine
end

section
/-! Facts about refused and accepted words, about a step on the host's next transaction and about safe runs, for the statements of
60_exceptions.md. -/

namespace Sys2Proof

/-- A word that is in neither class of 30_encoding.md R47 spells a command. -/
theorem exists_decode_ok_of_legal {w : CmdWord}
    (h : ¬(0xB ≤ (opField w).toNat ∨ ((opField w).toNat ≠ 0x4 ∧ (amtField w).toNat ≠ 0))) : ∃ i, decode w = .ok i := by
  cases hdecode : decode w with
  | ok i => exact ⟨i, rfl⟩
  | error e => exact absurd ((decode_eq_error_iff w).mp ⟨e, hdecode⟩) h

end Sys2Proof

namespace Sys2Proof.Machine

/-- What the host presents does not depend on the outputs or the draws, and leaves them (10_state.md R10, R23). -/
theorem present_with_outputs (s : State) (y : Bus) (ill : Bool) (draws : Nat) :
    ({ s with y := y, ill := ill, draws := draws } : State).present =
      { s.present with y := y, ill := ill, draws := draws } := by
  cases hpending : s.pending with
  | nil => simp [State.present, hpending]
  | cons t ts => simp [State.present, hpending]

/-- The next state, whole, when the host's next transaction is legal. -/
theorem step_cons_of_ok {s : State} {t : Transaction} {ts : List Transaction} {i : Instr} (hpending : s.pending = t :: ts)
    (hdecode : decode t.cmd = .ok i) :
    step s = .next { s with
      cmd := t.cmd, a := t.a, b := t.b, pending := ts, y := busResult i t.a t.b, ill := false } := by
  have hpresent := present_cons s t ts hpending
  rw [step_of_ok (i := i) (by rw [hpresent]; exact hdecode), hpresent]
  rfl

/-- The next state, whole, when the host's next transaction is illegal (60_exceptions.md R110). -/
theorem step_cons_of_error {s : State} {t : Transaction} {ts : List Transaction} {e : IllegalWord}
    (hpending : s.pending = t :: ts) (hdecode : decode t.cmd = .error e) :
    step s = .next { s with
      cmd := t.cmd, a := t.a, b := t.b, pending := ts, y := Config.unspecifiedY s.draws, ill := true,
      draws := s.draws + 1 } := by
  have hpresent := present_cons s t ts hpending
  rw [step_of_error (e := e) (by rw [hpresent]; exact hdecode), hpresent]
  rfl

/-- A run that begins with an accepted word is safe when the rest of it is. -/
theorem safeRun_succ_of_ok {s : State} {i : Instr} (n : Nat) (h : decode s.present.cmd = .ok i) :
    SafeRun (n + 1) s ↔ SafeRun n (driveY (busResult i s.present.a s.present.b) s.present) := by
  simp [SafeRun, checkedStep_of_ok h, exec_eq_driveY]

/-- A run that begins with a refused word is not safe. -/
theorem not_safeRun_succ_of_error {s : State} {e : IllegalWord} (n : Nat) (h : decode s.present.cmd = .error e) :
    ¬ SafeRun (n + 1) s := by
  simp [SafeRun, checkedStep_of_error h]

/-- As many steps as the host's list is long are safe exactly when all its words spell commands, from any state. -/
theorem safeRun_length_pending : ∀ (ts : List Transaction) (s : State), s.pending = ts →
    (SafeRun ts.length s ↔ ∀ t ∈ ts, ∃ i, decode t.cmd = .ok i)
  | [], _, _ => by simp [SafeRun]
  | t :: ts, s, hs => by
    have hcmd : s.present.cmd = t.cmd := by rw [present_cons s t ts hs]
    rw [List.length_cons, List.forall_mem_cons, ← hcmd]
    cases hdecode : decode s.present.cmd with
    | ok i =>
      have hrest : (driveY (busResult i s.present.a s.present.b) s.present).pending = ts := by simp [hs]
      simp [safeRun_succ_of_ok _ hdecode, safeRun_length_pending ts _ hrest]
    | error e => simp [not_safeRun_succ_of_error _ hdecode]

end Sys2Proof.Machine
end

section
/-! Proofs of the statements of 60_exceptions.md. -/

namespace Sys2Proof.Machine

/-- Settles O42: `decode_eq_error_iff` names the illegal words, and the next transaction presents the same inputs whatever the
outputs are, on which its `ILL` and result depend alone. -/
theorem illegalCommandEffect : Obligations.IllegalCommandEffect := by
  refine fun s => ⟨fun hillegal => ?_, fun hlegal => ?_, fun t _ => ?_⟩
  · obtain ⟨e, he⟩ := (decode_eq_error_iff _).mpr hillegal
    exact ⟨_, _, step_of_error he⟩
  · obtain ⟨i, hi⟩ := exists_decode_ok_of_legal hlegal
    exact everyLegalTransactionCompletes s i hi
  · have hpresent := present_with_outputs t s.y s.ill s.draws
    exact outputsDependOnInputsAlone t _ (by rw [hpresent]) (by rw [hpresent]) (by rw [hpresent])

/-- Settles O43: the legal step overwrites every port that the illegal one changed. -/
theorem illegalCommandLeavesNoTrace : Obligations.IllegalCommandLeavesNoTrace := by
  intro s bad good ts e i hpending hbad hgood
  exact ⟨_, _, step_cons_of_error hpending hbad, rfl, step_cons_of_ok rfl hgood, rfl, step_cons_of_ok rfl hgood⟩

/-- Settles O48, by induction on the host's list. -/
theorem safeRunIffAllLegal : Obligations.SafeRunIffAllLegal :=
  fun ts s => safeRun_length_pending ts { s with pending := ts } rfl

end Sys2Proof.Machine
end

section
/-! Facts about outputs that are current and about the first state, for the statements of 70_reset_and_hazards.md. -/

namespace Sys2Proof.Machine

/-- Running the same command a second time drives the value that `Y` already shows (20_memory.md R33). -/
theorem exec_driveY_busResult (i : Instr) (s : State) :
    exec i (driveY (busResult i s.a s.b) s) = .next (driveY (busResult i s.a s.b) s) :=
  exec_eq_driveY i (driveY _ s)

/-- After a command has been run on the ports, the outputs are current (70_reset_and_hazards.md R120, R121). -/
theorem outputsCurrent_driveY {s : State} {i : Instr} (h : decode s.cmd = .ok i) :
    OutputsCurrent (driveY (busResult i s.a s.b) s) := by
  simp only [OutputsCurrent, driveY_cmd, h]
  exact exec_driveY_busResult i s

/-- After `IllegalCommand` has been raised for the word on CMD, the outputs are current (60_exceptions.md R110). -/
theorem outputsCurrent_raiseIllegalCommand {s : State} {e : IllegalWord} (h : decode s.cmd = .error e) :
    OutputsCurrent (raiseIllegalCommand s) := by
  simp only [OutputsCurrent, raiseIllegalCommand_cmd, h, raiseIllegalCommand_ill]

/-- The inputs of the first state spell the command of R120's example (log entry 2). -/
theorem decode_reset_cmd : decode State.reset.cmd = .ok (.add .w32) := by decide

/-- `ADD.W32` of the first state's operands drives the `Y` and `ILL` that the first state shows (log entry 3). -/
theorem driveY_busResult_reset :
    driveY (busResult (.add .w32) State.reset.a State.reset.b) State.reset = State.reset := by decide

end Sys2Proof.Machine
end

section
/-! Proofs of the statements of 70_reset_and_hazards.md. -/

namespace Sys2Proof.Machine

/-- Settles O49: a step leaves the presented inputs on the ports, so a command it ran would drive the same value again, and the
exception it raised shows `ILL = 1`. -/
theorem stepKeepsOutputsCurrent : Obligations.StepKeepsOutputsCurrent := by
  intro s t hstep
  obtain ⟨i, hok, rfl⟩ | ⟨e, herror, rfl⟩ := step_cases hstep
  · exact outputsCurrent_driveY hok
  · exact outputsCurrent_raiseIllegalCommand herror

/-- Settles O50: the first state steps to itself, and the outputs are current after every step. -/
theorem firstOutputsCurrent : Obligations.FirstOutputsCurrent := by
  have hstep : step State.reset = .next State.reset := by
    rw [step_held_of_ok rfl decode_reset_cmd, driveY_busResult_reset]
  exact ⟨stepKeepsOutputsCurrent _ _ hstep, decode_reset_cmd, hstep⟩

end Sys2Proof.Machine
end

section
/-! Facts about the three fields of a word, of a command and of a row of the opcode table, for the statements of 30_encoding.md that
tell how decoder and encoder agree. -/

namespace Sys2Proof

/-- A command is what its operation code selects with its format and its amount (30_encoding.md R42). -/
theorem instrOf_fields (i : Instr) : instrOf i.opcode i.fmt i.amount = some i := by cases i <;> rfl

/-- The command a code selects has the format it was selected with. -/
theorem fmt_of_instrOf {op : BitVec 4} {f : Fmt} {amt : Nat} {i : Instr} (h : instrOf op f amt = some i) : i.fmt = f := by
  obtain rfl := opcode_of_instrOf h
  cases i <;> cases h <;> rfl

/-- The command a code selects has the amount it was selected with, which in the Z form must be 0 (30_encoding.md R43 to R45). -/
theorem amount_of_instrOf {op : BitVec 4} {f : Fmt} {amt : Nat} {i : Instr} (h : instrOf op f amt = some i)
    (hform : op = 0x4#4 ∨ amt = 0) : i.amount = amt := by
  obtain rfl := opcode_of_instrOf h
  cases i with
  | shift => cases h; rfl
  | _ => exact (hform.resolve_left (by simp [Instr.opcode])).symm

/-- A command is a SHIFT or has the amount 0. -/
theorem opcode_eq_shift_or_amount_eq_zero (i : Instr) : i.opcode = 0x4#4 ∨ i.amount = 0 := by
  cases i with
  | shift => exact .inl rfl
  | _ => exact .inr rfl

/-- A word spells the command that has its three fields (30_encoding.md R46). -/
theorem decode_eq_ok_iff_fields (w : CmdWord) (i : Instr) :
    decode w = .ok i ↔ opField w = i.opcode ∧ fmtField w = i.fmt.code ∧ (amtField w).toNat = i.amount := by
  have hzero : amtField w = 0#9 ↔ (amtField w).toNat = 0 := by simp [BitVec.toNat_eq]
  rw [decode_eq_ok_iff, hzero]
  constructor
  · rintro ⟨hinstr, hform⟩
    exact ⟨(opcode_of_instrOf hinstr).symm, by rw [fmt_of_instrOf hinstr, code_ofCode], (amount_of_instrOf hinstr hform).symm⟩
  · rintro ⟨hop, hfmt, hamt⟩
    rw [hop, hfmt, hamt, ofCode_code]
    exact ⟨instrOf_fields i, opcode_eq_shift_or_amount_eq_zero i⟩

/-- The amount of a well-formed command fits its field (30_encoding.md R44). -/
theorem wellFormed_iff (i : Instr) : i.wellFormed = true ↔ i.amount < 512 := by
  cases i <;> simp [Instr.wellFormed, Instr.amount]

/-- A word is its three fields side by side (30_encoding.md R40). -/
theorem fields_append (w : CmdWord) : amtField w ++ fmtField w ++ opField w = w := by
  have hhigh : amtField w ++ fmtField w = w.extractLsb' 4 12 := BitVec.extractLsb'_append_extractLsb'_eq_extractLsb' rfl
  have hword : w.extractLsb' 4 12 ++ opField w = w.extractLsb' 0 16 := BitVec.extractLsb'_append_extractLsb'_eq_extractLsb' rfl
  rw [hhigh, hword, BitVec.extractLsb'_eq_self]

/-- The `op` field of a masked word. -/
theorem opField_and (w v : CmdWord) : opField (w &&& v) = opField w &&& opField v := BitVec.extractLsb'_and

/-- The rows of the opcode table have two masks (30_encoding.md R43 to R45). -/
theorem mask_eq_or (i : Instr) : i.mask = 0x000F#16 ∨ i.mask = 0xFF8F#16 := by
  cases i with
  | shift => exact .inl rfl
  | _ => exact .inr rfl

/-- Every row of the opcode table fixes all bits of `op`. -/
theorem opField_mask (i : Instr) : opField i.mask = BitVec.allOnes 4 := by
  obtain h | h := mask_eq_or i <;> rw [h] <;> decide

/-- The row of a command fixes `op` to the command's operation code. -/
theorem opField_pattern (i : Instr) : opField i.pattern = i.opcode := by cases i <;> rfl

/-- A word that matches a command's row has the command's operation code in `op`. -/
theorem opField_of_matches_row {w : CmdWord} {i : Instr} (h : w &&& i.mask = i.pattern) : opField w = i.opcode := by
  rw [← opField_pattern, ← h, opField_and, opField_mask, BitVec.and_allOnes]

/-- The word of a well-formed command matches the command's row. -/
theorem encode_matches_row : ∀ i : Instr, Laws.EncodedRow.Statement i
  | .add f => Laws.EncodedRow.add f
  | .and f => Laws.EncodedRow.and f
  | .or f => Laws.EncodedRow.or f
  | .xor f => Laws.EncodedRow.xor f
  | .shift f amt => Laws.EncodedRow.shift f amt
  | .width f => Laws.EncodedRow.width f
  | .fromint f => Laws.EncodedRow.fromint f
  | .toint f => Laws.EncodedRow.toint f
  | .cmp f => Laws.EncodedRow.cmp f
  | .minv f => Laws.EncodedRow.minv f
  | .maxv f => Laws.EncodedRow.maxv f

end Sys2Proof
end

section
/-! Proofs of the statements of 30_encoding.md that tell how decoder and encoder agree. -/

namespace Sys2Proof

/-- Settles O2: the encoder writes the three fields side by side, and the decoder finds them there; the amount fits its field. -/
theorem decodeOfEncode : Obligations.DecodeOfEncode := by
  intro i hwf
  have hamt : (BitVec.ofNat 9 i.amount).toNat = i.amount := by
    rw [BitVec.toNat_ofNat, Nat.mod_eq_of_lt ((wellFormed_iff i).mp hwf)]
  rw [decode_eq_ok_iff_fields, encode, opField_append, fmtField_append, amtField_append]
  exact ⟨rfl, rfl, hamt⟩

/-- Settles O3: the fields of the word are those of the command, and a word is its three fields side by side. -/
theorem encodeOfDecode : Obligations.EncodeOfDecode := by
  intro w i h
  obtain ⟨hop, hfmt, hamt⟩ := (decode_eq_ok_iff_fields w i).mp h
  constructor
  · rw [wellFormed_iff, ← hamt]
    exact (amtField w).isLt
  · rw [encode, ← hop, ← hfmt, ← hamt, BitVec.ofNat_toNat, BitVec.setWidth_eq, fields_append]

/-- Settles O4: the row fixes `op`, and a word that spells a command is the command's own word, which matches the row. -/
theorem rowsMatchExactly : Obligations.RowsMatchExactly := by
  refine fun w i => ⟨fun h => ?_, fun ⟨hrow, hfields⟩ => ?_⟩
  · obtain ⟨hwf, hencode⟩ := encodeOfDecode w i h
    exact ⟨hencode ▸ (encode_matches_row i hwf).1, ((decode_eq_ok_iff_fields w i).mp h).2⟩
  · exact (decode_eq_ok_iff_fields w i).mpr ⟨opField_of_matches_row hrow, hfields⟩

/-- Settles O1, by running the decoder on the fifteen words. -/
theorem specWordsDecode : Obligations.SpecWordsDecode := by
  unfold Obligations.SpecWordsDecode
  decide

end Sys2Proof
end
